-- ==== Sys2Proof/Word.lean ====
section
/-! DEFINITION. Word.lean: the word types of the ENCODER (00_scope.md R9, R10). Nothing but names for widths stands here. -/

namespace Sys2Proof

/-- An 8-bit value: a command byte, a sub-register offset, a payload byte (R9, R34). -/
abbrev Byte := BitVec 8

/-- A 16-bit value: a segment pattern or the data of WRITE_WORD (R9, R34). -/
abbrev Word16 := BitVec 16

/-- The 64-bit command word CW (R9, R51). -/
abbrev CommandWord := BitVec 64

/-- The TRANSPORT's failure value `e`, "opaque to the ENCODER" (R11, R90). No source gives it a shape;
the model names the failure values by natural numbers and never computes with one (log entry 6, DESIGN CHOICE, safe). -/
abbrev FailValue := Nat

end Sys2Proof
end

