-- ==== Sys2Proof/Syntax.lean ====
section
/-! DEFINITION. Syntax.lean: the eight commands of spec/opcode_table.json (30_encoding.md R53) as abstract syntax,
and a command as the command port carries it (R51, R52). -/

namespace Sys2Proof

/-- One constructor per row of the opcode table, with the operands of R55 to R60. -/
inductive Instr where
  /-- START (R67). -/
  | start
  /-- SET_DISPLAY (R69); the on-flag is A[0] (R56). -/
  | setDisplay (on : Bool)
  /-- SET_BRIGHTNESS (R70); the level is A, unsigned (R57). -/
  | setBrightness (level : Nat)
  /-- COLON (R73); the on-flag is A[0] (R56). -/
  | colon (on : Bool)
  /-- CLEAR (R75). -/
  | clear
  /-- WRITE_BINARY (R76); the position is A, unsigned (R55), the string is S (R60). -/
  | writeBinary (pos : Nat) (chars : List Byte)
  /-- WRITE_DIGIT (R79); the position is A and the digit is B, unsigned (R55, R58). -/
  | writeDigit (pos : Nat) (digit : Nat)
  /-- WRITE_NUMBER (R83); the number is N, two's complement (R59). -/
  | writeNumber (n : Int)
  deriving DecidableEq, Repr

/-- A row's name in the opcode table (R53). -/
inductive Mnemonic where
  | start | setDisplay | setBrightness | colon | clear | writeBinary | writeDigit | writeNumber
  deriving DecidableEq, Repr

/-- The row an instruction belongs to. -/
def Instr.mnemonic : Instr → Mnemonic
  | .start           => .start
  | .setDisplay _    => .setDisplay
  | .setBrightness _ => .setBrightness
  | .colon _         => .colon
  | .clear           => .clear
  | .writeBinary _ _ => .writeBinary
  | .writeDigit _ _  => .writeDigit
  | .writeNumber _   => .writeNumber

/-- The payload an instruction carries: "Every other command has an empty payload" (R52). -/
def Instr.payload : Instr → List Byte
  | .writeBinary _ chars => chars
  | .start | .setDisplay _ | .setBrightness _ | .colon _ | .clear | .writeDigit _ _ | .writeNumber _ => []

/-- A command as it is presented on the command port: the word CW and the payload S (R28, R51, R52). -/
structure Command where
  word    : CommandWord
  payload : List Byte
  deriving DecidableEq, Repr

end Sys2Proof
end

