-- ==== Sys2Proof/WellFormed.lean ====
section
/-! DEFINITION. WellFormed.lean: which instructions have an encoding. An operand must fit its field (30_encoding.md R51, R55 to R60):
the assembler "refuses a number that does not fit its field and a string longer than 255 characters" (R65). -/

namespace Sys2Proof

/-- A number fits an 8-bit unsigned field. -/
def fitsByte (n : Nat) : Bool := n < 256

/-- A number fits the 32-bit two's complement field N (R59). -/
def fitsNumber (n : Int) : Bool := -2147483648 ≤ n && n ≤ 2147483647

/-- The operands fit their fields. An operand outside the source's range is well formed all the same (R63). -/
def Instr.wellFormed : Instr → Bool
  | .start               => true
  | .setDisplay _        => true
  | .setBrightness level => fitsByte level
  | .colon _             => true
  | .clear               => true
  | .writeBinary pos s   => fitsByte pos && fitsByte s.length
  | .writeDigit pos d    => fitsByte pos && fitsByte d
  | .writeNumber n       => fitsNumber n

end Sys2Proof
end

