-- ==== Sys2Proof/Decode.lean ====
section
/-! DEFINITION. Decode.lean: from a command word and its payload to an instruction or a named rejection
(30_encoding.md R51 to R64), and the encoder from the same table. -/

namespace Sys2Proof

/-! The fields of CW (R51). -/

/-- OP = CW[7:0]. -/
def fieldOp (cw : CommandWord) : Byte := cw.extractLsb' 0 8

/-- A = CW[15:8]. -/
def fieldA (cw : CommandWord) : Byte := cw.extractLsb' 8 8

/-- B = CW[23:16]. -/
def fieldB (cw : CommandWord) : Byte := cw.extractLsb' 16 8

/-- L = CW[31:24]. -/
def fieldL (cw : CommandWord) : Byte := cw.extractLsb' 24 8

/-- N = CW[63:32]. -/
def fieldN (cw : CommandWord) : BitVec 32 := cw.extractLsb' 32 32

/-- The opcode of a row (R53). -/
def Mnemonic.opcode : Mnemonic → Byte
  | .start         => 0x01
  | .setDisplay    => 0x02
  | .setBrightness => 0x03
  | .colon         => 0x04
  | .clear         => 0x05
  | .writeBinary   => 0x06
  | .writeDigit    => 0x07
  | .writeNumber   => 0x08

/-- One row of the table of R54. -/
structure Row where
  name    : Mnemonic
  pattern : CommandWord
  mask    : CommandWord
  deriving DecidableEq, Repr

/-- The table of R54, its match and mask columns letter for letter. -/
def rows : List Row :=
  [ ⟨.start,         0x0000000000000001, 0xFFFFFFFFFFFFFFFF⟩,
    ⟨.setDisplay,    0x0000000000000002, 0xFFFFFFFFFFFFFEFF⟩,
    ⟨.setBrightness, 0x0000000000000003, 0xFFFFFFFFFFFF00FF⟩,
    ⟨.colon,         0x0000000000000004, 0xFFFFFFFFFFFFFEFF⟩,
    ⟨.clear,         0x0000000000000005, 0xFFFFFFFFFFFFFFFF⟩,
    ⟨.writeBinary,   0x0000000000000006, 0xFFFFFFFF00FF00FF⟩,
    ⟨.writeDigit,    0x0000000000000007, 0xFFFFFFFFFF0000FF⟩,
    ⟨.writeNumber,   0x0000000000000008, 0x00000000FFFFFFFF⟩ ]

/-- "A command word `cw` selects a row when `(cw & mask) = match`" (R54). -/
def Row.selects (r : Row) (cw : CommandWord) : Bool := cw &&& r.mask == r.pattern

/-- The row of R54 a command word selects. -/
def selectRow (cw : CommandWord) : Option Mnemonic := (rows.find? fun r => r.selects cw).map Row.name

/-- Why a command is no instruction; each raises ERR_ILLEGAL_COMMAND (R61, R62). -/
inductive DecodeError where
  /-- Opcode 0x00 or 0x09 to 0xFF (R62). -/
  | reservedOpcode
  /-- An opcode of R53 with a must-be-zero field not zero (R54, R62). -/
  | mustBeZero
  /-- The payload has not the length the command takes (R61). -/
  | payloadLength
  deriving DecidableEq, Repr

/-- The payload length a row asks for: L for WRITE_BINARY, else 0 (R52, R61). -/
def Mnemonic.payloadLength (m : Mnemonic) (cw : CommandWord) : Nat :=
  match m with
  | .writeBinary => (fieldL cw).toNat
  | .start | .setDisplay | .setBrightness | .colon | .clear | .writeDigit | .writeNumber => 0

/-- Operand assembly (R55 to R60). -/
def Mnemonic.operands (m : Mnemonic) (cw : CommandWord) (s : List Byte) : Instr :=
  match m with
  | .start         => .start
  | .setDisplay    => .setDisplay ((fieldA cw).getLsbD 0)
  | .setBrightness => .setBrightness (fieldA cw).toNat
  | .colon         => .colon ((fieldA cw).getLsbD 0)
  | .clear         => .clear
  | .writeBinary   => .writeBinary (fieldA cw).toNat s
  | .writeDigit    => .writeDigit (fieldA cw).toNat (fieldB cw).toNat
  | .writeNumber   => .writeNumber (fieldN cw).toInt

/-- An opcode that R53 assigns. -/
def assignedOpcode (op : Byte) : Bool := 0x01 ≤ op.toNat && op.toNat ≤ 0x08

/-- The rejection of a word that selects no row (R62). -/
def noRowError (cw : CommandWord) : DecodeError :=
  if assignedOpcode (fieldOp cw) then .mustBeZero else .reservedOpcode

/-- Decoding, the first step of every command after acceptance (R61). -/
def decode (cw : CommandWord) (s : List Byte) : Except DecodeError Instr :=
  match selectRow cw with
  | none   => .error (noRowError cw)
  | some m => if s.length = m.payloadLength cw then .ok (m.operands cw s) else .error .payloadLength

/-! The encoder. -/

/-- A command word from its fields, laid out as R51 says. -/
def packWord (op : Byte) (a b l : Nat) (n : Int) : CommandWord :=
  BitVec.ofInt 32 n ++ BitVec.ofNat 8 l ++ BitVec.ofNat 8 b ++ BitVec.ofNat 8 a ++ op

/-- The on-flag as the A field (R56). -/
def flagField (on : Bool) : Nat := if on then 1 else 0

/-- The command word of an instruction (the encoding lines of R67, R69, R70, R73, R75, R76, R79, R83). -/
def encodeWord (i : Instr) : CommandWord :=
  match i with
  | .start               => packWord i.mnemonic.opcode 0 0 0 0
  | .setDisplay on       => packWord i.mnemonic.opcode (flagField on) 0 0 0
  | .setBrightness level => packWord i.mnemonic.opcode level 0 0 0
  | .colon on            => packWord i.mnemonic.opcode (flagField on) 0 0 0
  | .clear               => packWord i.mnemonic.opcode 0 0 0 0
  | .writeBinary pos s   => packWord i.mnemonic.opcode pos 0 s.length 0
  | .writeDigit pos d    => packWord i.mnemonic.opcode pos d 0 0
  | .writeNumber n       => packWord i.mnemonic.opcode 0 0 0 n

/-- The command of a well-formed instruction. -/
def encode (i : Instr) : Command := ⟨encodeWord i, i.payload⟩

/-! Lengths, and the opcode table's own bit numbering. -/

/-- The payload length told "from `OP` and `L` alone" (R64). -/
def streamPayload (cw : CommandWord) : Nat :=
  if fieldOp cw = Mnemonic.opcode .writeBinary then (fieldL cw).toNat else 0

/-- "a command is 8 bytes of command word plus, for WRITE_BINARY only, `L` payload bytes" (R64). -/
def commandBytes (cw : CommandWord) : Nat := 8 + streamPayload cw

/-- The command whose bits are `w`: bits 63..0 are CW and payload byte i is bits 71+8i..64+8i; a bit at or above `nbits` is 0. -/
def tableCommand (nbits w : Nat) : Command :=
  let bits := w % 2 ^ nbits
  let cw := BitVec.ofNat 64 bits
  ⟨cw, (List.range (streamPayload cw)).map fun i => BitVec.ofNat 8 (bits >>> (64 + 8 * i))⟩

/-- The instruction the decoder reads from an instruction whose bits are `w`, numbered as spec/opcode_table.json numbers them. -/
def decodeTableWord (nbits w : Nat) : Option Instr :=
  (decode (tableCommand nbits w).word (tableCommand nbits w).payload).toOption

end Sys2Proof
end

