-- ==== Sys2Proof/Config.lean ====
section
/-! DEFINITION. Config.lean: the parameters fixed at construction (00_scope.md R7, R8; 10_state.md R24; 20_memory.md R38).
The machine's own construction is one uninterpreted constant: no proof can learn its values. -/

namespace Sys2Proof.Config

/-- The identity string of this spec (R2). -/
def identity : String := "gobot-ht16k33-encoder/spec-v1"

/-- `WORD_ORDER`, the byte order in which the TRANSPORT serialises a 16-bit word (R9, R38). No rule depends on it. -/
inductive WordOrder where
  | lowByteFirst
  | highByteFirst
  deriving DecidableEq, Repr, Inhabited

/-- "an explicit configuration struct passed at construction (recognized options: bus number override,
device address override)" (R7), beside the two open parameters of the TRANSPORT (R8, R38). -/
structure Construction where
  devAddrOverride     : Option Byte
  busOverride         : Option Nat
  transportDefaultBus : Nat
  wordOrder           : WordOrder
  deriving DecidableEq, Repr, Inhabited

/-- `DEV_ADDR`: "Default "0x70"; the configuration may override it" (R7). -/
def Construction.devAddr (c : Construction) : Byte := c.devAddrOverride.getD 0x70

/-- `BUS`: "`BUS_OVERRIDE` when the configuration gives one, else `TRANSPORT_DEFAULT_BUS`" (R8). -/
def Construction.bus (c : Construction) : Nat := c.busOverride.getD c.transportDefaultBus

/-- The construction of this machine: a free value, without a body (log entry 7). -/
opaque construction : Construction

end Sys2Proof.Config
end

