-- ==== Sys2Proof/Machine/State.lean ====
section
/-! DEFINITION. Machine/State.lean: the ENCODER's state (10_state.md R13) and the model's input fields, as plain data. -/

namespace Sys2Proof.Machine

/-- `phase` (R15). -/
inductive Phase where
  | idle
  | busy
  deriving DecidableEq, Repr

/-- The four kinds of bus request (20_memory.md R34). -/
inductive Request where
  /-- `OPEN(a, n)`. -/
  | openBus (addr : Byte) (bus : Nat)
  /-- `WRITE_BYTE(b)`. -/
  | writeByte (b : Byte)
  /-- `READ_BYTE`. -/
  | readByte
  /-- `WRITE_WORD(o, w)`. -/
  | writeWord (offset : Byte) (w : Word16)
  deriving DecidableEq, Repr

/-- The response to a request, as LOG holds it (R32, R34). -/
inductive Response where
  /-- `Ok`, of OPEN, WRITE_BYTE and WRITE_WORD. -/
  | ok
  /-- `Ok(v)`, of READ_BYTE. -/
  | okByte (v : Byte)
  /-- `Fail(e)`, of any request. -/
  | fail (e : FailValue)
  deriving DecidableEq, Repr

/-- One draw of the TRANSPORT (R30): `Ok` with an 8-bit data lane, which only READ_BYTE looks at (log entry 3), or `Fail(e)`. -/
inductive Answer where
  | ok (data : Byte)
  | fail (e : FailValue)
  deriving DecidableEq, Repr

/-- One entry of LOG: a request and its response (R32). -/
structure LogEntry where
  request  : Request
  response : Response
  deriving DecidableEq, Repr

/-- The result codes (60_exceptions.md R88); their numbers stand in Machine/Flags.lean. -/
inductive ResultCode where
  | ok
  | errIllegalCommand
  | errPositionRange
  | errDigitTooLarge
  | errNumberTooLarge
  | errNumberNegative
  | errBinaryMalformed
  | errBinaryOverlong
  | errTransport
  deriving DecidableEq, Repr

/-- The pair `(code, E)` of RESULT (R18). -/
structure Completion where
  code : ResultCode
  e    : Option FailValue
  deriving DecidableEq, Repr

/-- The state: the seven elements of R13, then the model's three input fields (INVENTORY.md, State). -/
structure State where
  /-- `phase` (R15). -/
  phase : Phase
  /-- `CW`, the command latch (R16). -/
  cw : CommandWord
  /-- `S`, the payload latch (R16). -/
  payload : List Byte
  /-- `SEQ` (R17). -/
  seq : List Request
  /-- `K` (R17): a count, at most 9 and so within its 4 bits. -/
  k : Nat
  /-- `RESULT` (R18); `none` is the spec's NONE. -/
  result : Option Completion
  /-- `LOG` (R32), oldest entry first. -/
  log : List LogEntry
  /-- Input: the commands presented and not yet accepted, oldest first (R15, R28). -/
  commandPort : List Command
  /-- Input: the TRANSPORT's draws for the requests to come, in order (R30); empty: it has not answered. -/
  answers : List Answer
  /-- Input: reset is asserted (R103). -/
  resetLine : Bool
  deriving DecidableEq, Repr

/-- The state right after reset (70_reset_and_hazards.md R102). CW, S, SEQ and K are unspecified there and stand at
log entry 1's values (DESIGN CHOICE); the input fields stand at those of entries 2, 3 and 4 (DESIGN CHOICE). -/
def State.reset : State where
  phase       := .idle
  cw          := 0
  payload     := []
  seq         := []
  k           := 0
  result      := none
  log         := []
  commandPort := []
  answers     := []
  resetLine   := false

/-- Faults. The spec gives the ENCODER no behaviour that stops it: every error ends a command with a result code and the
machine goes on (60_exceptions.md R92, R93). So there is no constructor, and no step faults. -/
inductive Fault where
  deriving DecidableEq, Repr

/-- Refusals. -/
inductive Refusal where
  /-- Raised by an arm of exec whose instruction has no meaning yet (safe). No arm raises it: every command has its meaning. -/
  | notModelled (mnemonic : String)
  deriving DecidableEq, Repr

end Sys2Proof.Machine
end

