-- ==== Sys2Proof/Machine/Operands.lean ====
section
/-! DEFINITION. Machine/Operands.lean: the pure functions over operands: the segment ROM, the position mapping, the clamp,
the binary-string parser, the decimal decomposition, and the requests they go into. -/

namespace Sys2Proof.Machine

/-! The segment ROM. -/

/-- `SEG` (10_state.md R20), transcribed entry for entry. -/
def segRom : Vector Word16 10 :=
  #v[0x0C3F, 0x0006, 0x00DB, 0x004F, 0x00E6, 0x00ED, 0x00FD, 0x0007, 0x00FF, 0x00EF]

/-- `SEG[d]`, its index always checked (R22). -/
def seg (d : Fin 10) : Word16 := segRom[d]

/-! The register map (20_memory.md R40). -/

/-- The setup register's command byte; the split of 0x21 is the spec's own derivation (R40, log entry 8). -/
def setupRegister : Byte := 0x20

/-- The oscillator-enable bit of the setup register (R40). -/
def oscillatorEnable : Byte := 0x01

/-- The display-control register's command byte (R40). -/
def displayRegister : Byte := 0x80

/-- The brightness register's command byte (R40). -/
def brightnessRegister : Byte := 0xE0

/-- The colon register's offset, physical slot 2 (R42). -/
def colonOffset : Byte := 0x04

/-- The offset of physical slot `s`: 2*s (00_scope.md R12, R40). -/
def slotOffset (s : Nat) : Byte := BitVec.ofNat 8 (2 * s)

/-- `physical_register(p)` (R41), for a position already checked to be in 0 to 3. -/
def physicalRegister (p : Nat) : Byte := BitVec.ofNat 8 (if p < 2 then 2 * p else 2 * (p + 1))

/-- `clamp15(level)` (40_control.md R71). -/
def clamp15 (level : Nat) : Nat := min level 15

/-- The setup register OR'd with the oscillator-enable bit: 0x21 (R67, R72). -/
def oscillatorByte : Byte := setupRegister ||| oscillatorEnable

/-- `0x80 | on` (R69). -/
def displayByte (on : Bool) : Byte := displayRegister ||| (if on then 0x01 else 0x00)

/-- `0xE0 | clamp15(level)` (R70). -/
def brightnessByte (level : Nat) : Byte := brightnessRegister ||| BitVec.ofNat 8 (clamp15 level)

/-- The colon register's value: 0x0002 or 0x0000 (41_panel.md R73). -/
def colonWord (on : Bool) : Word16 := if on then 0x0002 else 0x0000

/-- The two bytes of a word in the order the TRANSPORT puts them on the wire (R38). Below the request level: no step uses it. -/
def wireBytes (order : Config.WordOrder) (w : Word16) : List Byte :=
  match order with
  | .lowByteFirst  => [w.extractLsb' 0 8, w.extractLsb' 8 8]
  | .highByteFirst => [w.extractLsb' 8 8, w.extractLsb' 0 8]

/-! The binary-string parser (41_panel.md R77). -/

/-- The character '0' (30_encoding.md R52). -/
def charZero : Byte := 0x30

/-- The character '1' (R52). -/
def charOne : Byte := 0x31

/-- A byte that is a binary digit (R77). -/
def isBinaryChar (c : Byte) : Bool := c == charZero || c == charOne

/-- The unbounded value of a string, `S[0]` the most significant digit (R77). -/
def binaryValue (s : List Byte) : Nat := s.foldl (fun v c => 2 * v + (c.toNat - charZero.toNat)) 0

/-- What `parse_binary` returns (R77). -/
inductive ParsedBinary where
  | malformed
  | overlong
  | value (v : Word16)
  deriving DecidableEq, Repr

/-- `parse_binary(S)` (R77): empty or a non-binary character first, then more than 16 significant bits. -/
def parseBinary (s : List Byte) : ParsedBinary :=
  if s.length = 0 then .malformed
  else if s.any (fun c => !isBinaryChar c) then .malformed
  else if binaryValue s > 0xFFFF then .overlong
  else .value (BitVec.ofNat 16 (binaryValue s))

/-! Decimal decomposition and leading-zero blanking (42_number.md). -/

/-- `split(n)` (R81), defined for 0 to 9999; every element is a decimal digit by its type. -/
def split (n : Nat) (h : n ≤ 9999) : List (Fin 10) :=
  [ ⟨n / 1000, by omega⟩, ⟨n / 100 % 10, by omega⟩, ⟨n / 10 % 10, by omega⟩, ⟨n % 10, by omega⟩ ]

/-- The one request of a digit write (R79, R84). -/
def digitRequest (pos : Nat) (d : Fin 10) : Request := .writeWord (physicalRegister pos) (seg d)

/-- The scan of R83 from position `pos`: "Scan slots left to right", with leading-zero blanking (R85). -/
def scanDigits (pos : Nat) (seen : Bool) : List (Fin 10) → List Request
  | []      => []
  | d :: ds =>
    if seen || d ≠ 0 then digitRequest pos d :: scanDigits (pos + 1) true ds
    else scanDigits (pos + 1) false ds

/-- The five requests of CLEAR, in ascending offset order (41_panel.md R75); WRITE_NUMBER issues the same five (R83). -/
def clearRequests : List Request := (List.range 5).map fun s => .writeWord (slotOffset s) 0x0000

end Sys2Proof.Machine
end

