-- ==== Sys2Proof/Machine/Ops.lean ====
section
/-! DEFINITION. Machine/Ops.lean: the named operations over the state: acceptance, ending a command (which is all that an error
does here), the sequencer, reset, and what the outside world does at the ports. -/

namespace Sys2Proof.Machine

/-! Acceptance and the end of a command. -/

/-- Acceptance of the command at the head of the port: "the ENCODER sets `CW <- cw`, `S <- s`, `phase <- BUSY`" (10_state.md R28). -/
def State.accept (c : Command) (rest : List Command) (s : State) : State :=
  { s with phase := .busy, cw := c.word, payload := c.payload, commandPort := rest }

/-- The end of a command: "`RESULT` holds its result, `phase <- IDLE`" (R29). CW, S, SEQ and K stay, which R29 allows. -/
def State.endCommand (code : ResultCode) (e : Option FailValue) (s : State) : State :=
  { s with phase := .idle, result := some ⟨code, e⟩ }

/-- `raise <Error>`: a decode or validation error (00_scope.md R11, 60_exceptions.md R89, R92). This is the whole of taking an
exception on this hardware: "there is no saved program counter, no cause register besides `RESULT`, no mode change, no mask, no
stack and no vector". There is no return from one: "There is no return-from-error command" (R93). -/
def raise (code : ResultCode) (s : State) : Host.Outcome State Fault Refusal := .next (s.endCommand code none)

/-! The sequencer (R27). -/

/-- The response LOG holds for a draw of the TRANSPORT (20_memory.md R34): the data lane counts for READ_BYTE only (log entry 3). -/
def respond (r : Request) (a : Answer) : Response :=
  match a with
  | .fail e => .fail e
  | .ok v =>
    match r with
    | .readByte => .okByte v
    | .openBus _ _ | .writeByte _ | .writeWord _ _ => .ok

/-- `SEQ <- reqs`, `K <- 0` (R27). -/
def State.loadSeq (reqs : List Request) (s : State) : State := { s with seq := reqs, k := 0 }

/-- `Issue` with the answer at the head of the input, and "append (SEQ[K], resp) to LOG" (R27). -/
def State.record (r : Request) (a : Answer) (rest : List Answer) (s : State) : State :=
  { s with log := s.log ++ [⟨r, respond r a⟩], answers := rest }

/-- `K <- K + 1` (R27). -/
def State.advance (s : State) : State := { s with k := s.k + 1 }

/-- The loop of R27 over the requests still to issue. It stops at the first `Fail(e)`, ends in OK after the last `Ok`, and
waits, the phase as it is, where the TRANSPORT has not answered (R30; log entry 5). -/
def drain : List Request → State → State
  | [], s => s.endCommand .ok none
  | r :: rs, s =>
    match s.answers with
    | [] => s
    | .fail e :: rest => (s.record r (.fail e) rest).endCommand .errTransport (some e)
    | .ok v :: rest => drain rs (s.record r (.ok v) rest).advance

/-- `Run(reqs)` (R27). -/
def run (reqs : List Request) (s : State) : State := drain reqs (s.loadSeq reqs)

/-- A running command goes on with the request SEQ[K] (R17, R27). -/
def resume (s : State) : State := drain (s.seq.drop s.k) s

/-- A command once decoded: a validation error is raised before any request, else its list is run (R28, R89). -/
def perform (plan : Except ResultCode (List Request)) (s : State) : Host.Outcome State Fault Refusal :=
  match plan with
  | .error code => raise code s
  | .ok reqs    => .next (run reqs s)

/-- The request in flight: issued and not yet answered (R27, R103). -/
def State.inFlight (s : State) : Option Request :=
  match s.phase with
  | .idle => none
  | .busy => s.seq[s.k]?

/-! Reset (70_reset_and_hazards.md). -/

/-- Reset, at any time (R102, R103): the state of R102, no request issued. "the response of a request in flight is ignored", so its
draw is dropped (log entry 4). The commands at the port are the caller's and stay (log entry 2). -/
def State.applyReset (s : State) : State :=
  { State.reset with
    commandPort := s.commandPort
    answers := if s.inFlight.isSome then s.answers.tail else s.answers }

/-! What the outside world does at the ports. -/

/-- The caller presents a command; it is held until the ENCODER is IDLE (R15, R28). -/
def State.present (c : Command) (s : State) : State := { s with commandPort := s.commandPort ++ [c] }

/-- The TRANSPORT answers one more request (R30). -/
def State.answer (a : Answer) (s : State) : State := { s with answers := s.answers ++ [a] }

/-- Reset is asserted; the next step resets (R103). -/
def State.assertReset (s : State) : State := { s with resetLine := true }

end Sys2Proof.Machine
end

