-- ==== Sys2Proof/Machine/Control.lean ====
section
/-! DEFINITION. Machine/Control.lean: START, SET_DISPLAY and SET_BRIGHTNESS (40_control.md). For each command its plan, the
request list its operands fix, and its meaning. -/

namespace Sys2Proof.Machine

/-- The five requests of START for a construction (R67): open, oscillator on, dummy read, display on, brightness 15. -/
def startRequests (c : Config.Construction) : List Request :=
  [ .openBus c.devAddr c.bus, .writeByte oscillatorByte, .readByte, .writeByte (displayByte true), .writeByte (brightnessByte 15) ]

/-- START has no validation error (R67). -/
def planStart : Except ResultCode (List Request) := .ok (startRequests Config.construction)

/-- START (R67); every START issues the whole sequence again (R68). -/
def execStart (s : State) : Host.Outcome State Fault Refusal := perform planStart s

/-- SET_DISPLAY's one request; no validation error (R69). -/
def planSetDisplay (on : Bool) : Except ResultCode (List Request) := .ok [.writeByte (displayByte on)]

/-- SET_DISPLAY (R69). -/
def execSetDisplay (on : Bool) (s : State) : Host.Outcome State Fault Refusal := perform (planSetDisplay on) s

/-- SET_BRIGHTNESS's one request; "Clamps any input above 15 down to 15 (never errors)" (R70). -/
def planSetBrightness (level : Nat) : Except ResultCode (List Request) := .ok [.writeByte (brightnessByte level)]

/-- SET_BRIGHTNESS (R70). -/
def execSetBrightness (level : Nat) (s : State) : Host.Outcome State Fault Refusal := perform (planSetBrightness level) s

end Sys2Proof.Machine
end

