-- ==== Sys2Proof/Machine/Number.lean ====
section
/-! DEFINITION. Machine/Number.lean: WRITE_NUMBER (42_number.md). -/

namespace Sys2Proof.Machine

/-- The clear and the digit writes of a number in 0 to 9999 (R83). -/
def numberRequests (n : Nat) (h : n ≤ 9999) : List Request := clearRequests ++ scanDigits 0 false (split n h)

/-- WRITE_NUMBER: a negative number and one above 9999 are errors (R82, R83); else the panel is cleared and the digits are written. -/
def planWriteNumber (n : Int) : Except ResultCode (List Request) :=
  if n < 0 then .error .errNumberNegative
  else if h : n.toNat ≤ 9999 then .ok (numberRequests n.toNat h)
  else .error .errNumberTooLarge

/-- WRITE_NUMBER (R83). -/
def execWriteNumber (n : Int) (s : State) : Host.Outcome State Fault Refusal := perform (planWriteNumber n) s

end Sys2Proof.Machine
end

