-- ==== Sys2Proof/Machine/Panel.lean ====
section
/-! DEFINITION. Machine/Panel.lean: COLON, CLEAR, WRITE_BINARY and WRITE_DIGIT (41_panel.md). -/

namespace Sys2Proof.Machine

/-- COLON's one request; no validation error (R73). -/
def planColon (on : Bool) : Except ResultCode (List Request) := .ok [.writeWord colonOffset (colonWord on)]

/-- COLON (R73). -/
def execColon (on : Bool) (s : State) : Host.Outcome State Fault Refusal := perform (planColon on) s

/-- CLEAR's five requests (R75). -/
def planClear : Except ResultCode (List Request) := .ok clearRequests

/-- CLEAR (R75). -/
def execClear (s : State) : Host.Outcome State Fault Refusal := perform planClear s

/-- WRITE_BINARY: the position is checked first, then the string, malformed before overlong (R76, 60_exceptions.md R91). -/
def planWriteBinary (pos : Nat) (chars : List Byte) : Except ResultCode (List Request) :=
  if pos > 3 then .error .errPositionRange
  else
    match parseBinary chars with
    | .malformed => .error .errBinaryMalformed
    | .overlong  => .error .errBinaryOverlong
    | .value v   => .ok [.writeWord (physicalRegister pos) v]

/-- WRITE_BINARY (R76). -/
def execWriteBinary (pos : Nat) (chars : List Byte) (s : State) : Host.Outcome State Fault Refusal :=
  perform (planWriteBinary pos chars) s

/-- WRITE_DIGIT: the position is checked first, then the digit (R79, R91). -/
def planWriteDigit (pos digit : Nat) : Except ResultCode (List Request) :=
  if pos > 3 then .error .errPositionRange
  else if h : digit < 10 then .ok [digitRequest pos ⟨digit, h⟩]
  else .error .errDigitTooLarge

/-- WRITE_DIGIT (R79). -/
def execWriteDigit (pos digit : Nat) (s : State) : Host.Outcome State Fault Refusal := perform (planWriteDigit pos digit) s

end Sys2Proof.Machine
end

