-- ==== Sys2Proof/Machine/Dispatch.lean ====
section
/-! DEFINITION. Machine/Dispatch.lean: one arm per command (30_encoding.md R53). -/

namespace Sys2Proof.Machine

def exec (i : Instr) (s : State) : Host.Outcome State Fault Refusal :=
  match i with
  | .start => Sys2Proof.Machine.execStart s
  | .setDisplay on => Sys2Proof.Machine.execSetDisplay on s
  | .setBrightness level => Sys2Proof.Machine.execSetBrightness level s
  | .colon on => Sys2Proof.Machine.execColon on s
  | .clear => Sys2Proof.Machine.execClear s
  | .writeBinary pos chars => Sys2Proof.Machine.execWriteBinary pos chars s
  | .writeDigit pos digit => Sys2Proof.Machine.execWriteDigit pos digit s
  | .writeNumber n => Sys2Proof.Machine.execWriteNumber n s

end Sys2Proof.Machine
end

