-- ==== Sys2Proof/Machine/Step.lean ====
section
/-! DEFINITION. Machine/Step.lean: one step of the machine, and the placing of a command where the next step takes it. -/

namespace Sys2Proof.Machine

/-- An accepted command: decoding first, an illegal one ends at once with no request (10_state.md R28, 30_encoding.md R61). -/
def execCommand (c : Command) (s : State) : Host.Outcome State Fault Refusal :=
  match decode c.word c.payload with
  | .ok i    => exec i s
  | .error _ => raise .errIllegalCommand s

/-- One step. Reset comes first (70_reset_and_hazards.md R103). In BUSY the running command goes on (R27) and no command is accepted
(R15). In IDLE the oldest presented command is accepted (R28); without one the ENCODER waits (R105). -/
def step (s : State) : Host.Outcome State Fault Refusal :=
  if s.resetLine then .next s.applyReset
  else
    match s.phase with
    | .busy => .next (resume s)
    | .idle =>
      match s.commandPort with
      | []        => .next s
      | c :: rest => execCommand c (s.accept c rest)

/-- `s` with the command of bits `w` presented first at the port, the ENCODER in IDLE and reset not asserted, so that the very next
step accepts and runs it (log entry 9). -/
def State.withFetchWord (s : State) (nbits w : Nat) : State :=
  { s with phase := .idle, resetLine := false, commandPort := tableCommand nbits w :: s.commandPort }

end Sys2Proof.Machine
end

