-- ==== Sys2Proof/Machine/Assembler.lean ====
section
/-! DEFINITION. Machine/Assembler.lean: the assembler syntax of 30_encoding.md R65, one command a line, and the four one-command
names of R66. It says how a written command becomes a command word and a payload; no step uses it. Blanks, leading zeros and what
stands in quotes follow log entry 10. -/

namespace Sys2Proof.Machine

/-- A blank. -/
def isBlank (c : Char) : Bool := c == ' '

/-- A text without the blanks at its two ends. -/
def trimBlanks (cs : List Char) : List Char := ((cs.dropWhile isBlank).reverse.dropWhile isBlank).reverse

/-- The value of a digit character, hexadecimal letters in either case. -/
def digitValue (c : Char) : Option Nat :=
  if '0' ≤ c ∧ c ≤ '9' then some (c.toNat - '0'.toNat)
  else if 'a' ≤ c ∧ c ≤ 'f' then some (c.toNat - 'a'.toNat + 10)
  else if 'A' ≤ c ∧ c ≤ 'F' then some (c.toNat - 'A'.toNat + 10)
  else none

/-- One more digit of a number in a base. -/
def digitStep (base : Nat) (acc : Option Nat) (c : Char) : Option Nat :=
  match acc, digitValue c with
  | some v, some d => if d < base then some (base * v + d) else none
  | _, _ => none

/-- A number written in a base, at least one digit. -/
def parseDigits (base : Nat) (cs : List Char) : Option Nat :=
  if cs.isEmpty then none else cs.foldl (digitStep base) (some 0)

/-- "decimal or `0x` hexadecimal numbers" (R65). -/
def parseNatural (cs : List Char) : Option Nat :=
  match cs with
  | '0' :: 'x' :: rest => parseDigits 16 rest
  | _ => parseDigits 10 cs

/-- A number with an optional minus sign, for WRITE_NUMBER (R65). -/
def parseInteger (cs : List Char) : Option Int :=
  match cs with
  | '-' :: rest => (parseNatural rest).map fun v => -(v : Int)
  | _ => (parseNatural cs).map fun v => (v : Int)

/-- `on | off` (R65). -/
def parseSwitch (cs : List Char) : Option Bool :=
  if cs = ['o', 'n'] then some true else if cs = ['o', 'f', 'f'] then some false else none

/-- The byte of a character inside the quotes (R65). -/
def charByte (c : Char) : Option Byte := if c.toNat < 128 then some (BitVec.ofNat 8 c.toNat) else none

/-- The bytes between a quote and the quote that ends the text. -/
def parseQuotedBody : List Char → Option (List Byte)
  | [] => none
  | ['"'] => some []
  | c :: rest =>
    if c = '"' then none
    else
      match charByte c, parseQuotedBody rest with
      | some b, some bs => some (b :: bs)
      | _, _ => none

/-- `"<characters>"` (R65). -/
def parseQuoted (cs : List Char) : Option (List Byte) :=
  match cs with
  | '"' :: rest => parseQuotedBody rest
  | _ => none

/-- The two operands around the first comma. -/
def splitComma (cs : List Char) : Option (List Char × List Char) :=
  match cs.span (· ≠ ',') with
  | (l, ',' :: r) => some (trimBlanks l, trimBlanks r)
  | _ => none

/-- `<pos>, "<characters>"` (R65). -/
def parseBinaryOperands (cs : List Char) : Option Instr :=
  match splitComma cs with
  | none => none
  | some (l, r) =>
    match parseNatural l, parseQuoted r with
    | some pos, some chars => some (.writeBinary pos chars)
    | _, _ => none

/-- `<pos>, <digit>` (R65). -/
def parseDigitOperands (cs : List Char) : Option Instr :=
  match splitComma cs with
  | none => none
  | some (l, r) =>
    match parseNatural l, parseNatural r with
    | some pos, some digit => some (.writeDigit pos digit)
    | _, _ => none

/-- A command that takes no operand. -/
def parseBare (i : Instr) (cs : List Char) : Option Instr := if cs.isEmpty then some i else none

/-- One line of R65, or one of the four names of R66. -/
def parseLine (line : String) : Option Instr :=
  let cs := trimBlanks line.toList
  let name := cs.takeWhile (fun c => !isBlank c)
  let operands := trimBlanks (cs.dropWhile (fun c => !isBlank c))
  if name = "START".toList then parseBare .start operands
  else if name = "SET_DISPLAY".toList then (parseSwitch operands).map .setDisplay
  else if name = "SET_BRIGHTNESS".toList then (parseNatural operands).map .setBrightness
  else if name = "COLON".toList then (parseSwitch operands).map .colon
  else if name = "CLEAR".toList then parseBare .clear operands
  else if name = "WRITE_BINARY".toList then parseBinaryOperands operands
  else if name = "WRITE_DIGIT".toList then parseDigitOperands operands
  else if name = "WRITE_NUMBER".toList then (parseInteger operands).map .writeNumber
  else if name = "DISPLAY_ON".toList then parseBare (.setDisplay true) operands
  else if name = "DISPLAY_OFF".toList then parseBare (.setDisplay false) operands
  else if name = "COLON_ON".toList then parseBare (.colon true) operands
  else if name = "COLON_OFF".toList then parseBare (.colon false) operands
  else none

/-- The assembler: it "refuses a number that does not fit its field and a string longer than 255 characters" (R65). -/
def assemble (line : String) : Option Command :=
  match parseLine line with
  | none => none
  | some i => if i.wellFormed then some (encode i) else none

end Sys2Proof.Machine
end

