-- ==== Sys2Proof/Machine/Flags.lean ====
section
/-! DEFINITION. Machine/Flags.lean: the ENCODER "has no status flags and no condition codes. The only status a caller can read
is `RESULT` and, while a command runs, `phase`" (10_state.md R19). This file gives the numbers of the result codes and
those two reads. -/

namespace Sys2Proof.Machine

/-- The 8-bit code of a result (60_exceptions.md R88). -/
def ResultCode.number : ResultCode → Byte
  | .ok                 => 0x00
  | .errIllegalCommand  => 0x01
  | .errPositionRange   => 0x02
  | .errDigitTooLarge   => 0x03
  | .errNumberTooLarge  => 0x04
  | .errNumberNegative  => 0x05
  | .errBinaryMalformed => 0x06
  | .errBinaryOverlong  => 0x07
  | .errTransport       => 0x08

/-- The classes of the table of R88 (R87). -/
inductive ErrorClass where
  | noError
  | decodeError
  | validationError
  | transportError
  deriving DecidableEq, Repr

/-- The class of a result code (R88). -/
def ResultCode.errorClass : ResultCode → ErrorClass
  | .ok                 => .noError
  | .errIllegalCommand  => .decodeError
  | .errPositionRange   => .validationError
  | .errDigitTooLarge   => .validationError
  | .errNumberTooLarge  => .validationError
  | .errNumberNegative  => .validationError
  | .errBinaryMalformed => .validationError
  | .errBinaryOverlong  => .validationError
  | .errTransport       => .transportError

/-- What the caller reads on the result port: NONE, or the code's number and E (R18). -/
def State.readResult (s : State) : Option (Byte × Option FailValue) :=
  s.result.map fun c => (c.code.number, c.e)

/-- What the caller reads of the phase (R15, R19). -/
def State.isBusy (s : State) : Bool := s.phase == .busy

end Sys2Proof.Machine
end

