-- ==== Sys2Proof/Machine/View.lean ====
section
/-! DEFINITION. Machine/View.lean: the commanded view `CV`, "a function of `LOG`" (10_state.md R31). "It is not ENCODER state and not a
claim about the CHIP". -/

namespace Sys2Proof.Machine

/-- `osc`: Unknown or On. -/
inductive OscView where
  | unknown
  | on
  deriving DecidableEq, Repr

/-- `disp`: Unknown, On or Off. -/
inductive DispView where
  | unknown
  | on
  | off
  deriving DecidableEq, Repr

/-- The elements of CV (R31); `none` is Unknown. -/
structure CommandedView where
  osc  : OscView
  disp : DispView
  dim  : Option (BitVec 4)
  ram  : Vector (Option Word16) 5
  deriving DecidableEq, Repr

/-- "It starts with every element `Unknown`" (R31). -/
def CommandedView.initial : CommandedView := ⟨.unknown, .unknown, none, Vector.replicate 5 none⟩

/-- `(WRITE_BYTE b, Ok)` (R31). -/
def viewByteOk (b : Byte) (v : CommandedView) : CommandedView :=
  if b = 0x21 then { v with osc := .on }
  else if b = 0x80 then { v with disp := .off }
  else if b = 0x81 then { v with disp := .on }
  else if b.extractLsb' 4 4 = 0xE then { v with dim := some (b.extractLsb' 0 4) }
  else v

/-- `(WRITE_BYTE b, Fail e)`: "the element b would have set <- Unknown" (R31). -/
def viewByteFail (b : Byte) (v : CommandedView) : CommandedView :=
  if b = 0x21 then { v with osc := .unknown }
  else if b = 0x80 then { v with disp := .unknown }
  else if b = 0x81 then { v with disp := .unknown }
  else if b.extractLsb' 4 4 = 0xE then { v with dim := none }
  else v

/-- `ram[o / 2] <- w`, with `none` for Unknown (R31). The view has slots 0 to 4; an offset beyond them is never issued (20_memory.md R43). -/
def viewWord (o : Byte) (w : Option Word16) (v : CommandedView) : CommandedView :=
  { v with ram := v.ram.setIfInBounds (o.toNat / 2) w }

/-- The fold's one step over LOG (R31). -/
def viewEntry (v : CommandedView) (x : LogEntry) : CommandedView :=
  match x.request, x.response with
  | .openBus _ _,   _         => v
  | .readByte,      _         => v
  | .writeByte b,   .fail _   => viewByteFail b v
  | .writeByte b,   .ok       => viewByteOk b v
  | .writeByte b,   .okByte _ => viewByteOk b v
  | .writeWord o _, .fail _   => viewWord o none v
  | .writeWord o w, .ok       => viewWord o (some w) v
  | .writeWord o w, .okByte _ => viewWord o (some w) v

/-- `CV` of a log (R31). -/
def commandedView (log : List LogEntry) : CommandedView := log.foldl viewEntry .initial

/-- `CV` of a state. -/
def State.view (s : State) : CommandedView := commandedView s.log

end Sys2Proof.Machine
end

