-- ==== Sys2Proof/Safety.lean ====
section
/-! DEFINITION. Safety.lean: the terms in which statements speak of a good state and a good log. -/

namespace Sys2Proof.Machine

/-- A command's validation and request list, "fixed by its operands alone" (10_state.md R17). -/
def plan : Instr → Except ResultCode (List Request)
  | .start               => planStart
  | .setDisplay on       => planSetDisplay on
  | .setBrightness level => planSetBrightness level
  | .colon on            => planColon on
  | .clear               => planClear
  | .writeBinary pos s   => planWriteBinary pos s
  | .writeDigit pos d    => planWriteDigit pos d
  | .writeNumber n       => planWriteNumber n

/-- How many requests a command issues once validated (70_reset_and_hazards.md R113, 42_number.md R84). -/
def requestCount : Instr → Nat
  | .start           => 5
  | .setDisplay _    => 1
  | .setBrightness _ => 1
  | .colon _         => 1
  | .clear           => 5
  | .writeBinary _ _ => 1
  | .writeDigit _ _  => 1
  | .writeNumber n   => 5 + (Nat.digits 10 n.toNat).length

/-- The command bytes the ENCODER ever writes (20_memory.md R36). -/
def issuableByte (b : Byte) : Bool := b == 0x21 || b == 0x80 || b == 0x81 || (0xE0 ≤ b.toNat && b.toNat ≤ 0xEF)

/-- The set of all requests the ENCODER can issue (R50). -/
def issuable : Request → Bool
  | .openBus a n   => a == Config.construction.devAddr && n == Config.construction.bus
  | .writeByte b   => issuableByte b
  | .readByte      => true
  | .writeWord o w =>
    o == 0x00 || o == 0x02 || o == 0x06 || o == 0x08 || (o == 0x04 && (w == 0x0002 || w == 0x0000))

/-- A response of the kind its request takes (R34): `Ok(v)` of READ_BYTE only, plain `Ok` of the others, `Fail(e)` of any. -/
def LogEntry.wellTyped (x : LogEntry) : Bool :=
  match x.response with
  | .fail _   => true
  | .okByte _ => x.request == .readByte
  | .ok       => x.request != .readByte

/-- An entry whose request failed. -/
def LogEntry.failed (x : LogEntry) : Bool :=
  match x.response with
  | .fail _ => true
  | .ok | .okByte _ => false

/-- RESULT's E is present exactly for ERR_TRANSPORT (R18). -/
def Completion.wellFormed (c : Completion) : Bool := c.e.isSome == (c.code == .errTransport)

/-- A running command: SEQ is the list that the latched command's operands fix, K points into it, and the last K entries of LOG are
SEQ's first K requests, none failed (R16, R17, R27). -/
def State.Running (s : State) : Prop :=
  ∃ (i : Instr) (before answered : List LogEntry),
    decode s.cw s.payload = .ok i ∧
    plan i = .ok s.seq ∧
    s.k < s.seq.length ∧
    s.log = before ++ answered ∧
    answered.map LogEntry.request = s.seq.take s.k ∧
    ∀ x ∈ answered, x.failed = false

/-- The machine's invariant: RESULT is well formed, every entry of LOG is a request of R50 with a response of its kind, and in BUSY a
command is running. -/
structure State.Inv (s : State) : Prop where
  result_wf   : ∀ c, s.result = some c → c.wellFormed = true
  log_issued  : ∀ x ∈ s.log, issuable x.request = true
  log_typed   : ∀ x ∈ s.log, x.wellTyped = true
  busy_runs   : s.phase = .busy → s.Running

/-- The must-be-zero column of 30_encoding.md R54, read field by field: the words that are legal encodings (R62). -/
def legalWord (cw : CommandWord) : Bool :=
  match (fieldOp cw).toNat with
  | 0x01 => fieldA cw == 0 && fieldB cw == 0 && fieldL cw == 0 && fieldN cw == 0
  | 0x02 => (fieldA cw).toNat < 2 && fieldB cw == 0 && fieldL cw == 0 && fieldN cw == 0
  | 0x03 => fieldB cw == 0 && fieldL cw == 0 && fieldN cw == 0
  | 0x04 => (fieldA cw).toNat < 2 && fieldB cw == 0 && fieldL cw == 0 && fieldN cw == 0
  | 0x05 => fieldA cw == 0 && fieldB cw == 0 && fieldL cw == 0 && fieldN cw == 0
  | 0x06 => fieldB cw == 0 && fieldN cw == 0
  | 0x07 => fieldL cw == 0 && fieldN cw == 0
  | 0x08 => fieldA cw == 0 && fieldB cw == 0 && fieldL cw == 0
  | _    => false

/-- A word and its payload length are those of a command (R61, R62). -/
def legalCommand (c : Command) : Bool :=
  legalWord c.word && c.payload.length == (if fieldOp c.word = 0x06 then (fieldL c.word).toNat else 0)

/-- The entries a list of draws makes of a list of requests. -/
def logOf (reqs : List Request) (as : List Answer) : List LogEntry :=
  (reqs.zip as).map fun p => ⟨p.1, respond p.1 p.2⟩

/-- Draws that are all `Ok`. -/
def allOk (as : List Answer) : Bool := as.all fun a => match a with | .ok _ => true | .fail _ => false

end Sys2Proof.Machine
end

