-- ==== Sys2Proof/Certificates/Slice0/Obligations.lean ====
section
/-! DEFINITION. Certificates/Slice0/Obligations.lean: the statements for the provers. Each is about the machine, none about a program.
Register offsets, segment patterns and command bytes are written out as the spec gives them.
Model's choices that many of them share: the TRANSPORT's responses are the draws in `answers` (log entry 3), presented commands wait in
`commandPort` (entry 2), one step runs a command as far as the draws reach (entry 5), and after a command's end CW, S, SEQ and K stand
as R28 and the loop of R27 left them, which R29 allows (entry 12). A clause about SEQ or K in a next state that is IDLE, and one about
a field that a validation error leaves as it was, is in that respect the model's. -/

open Sys2Proof Sys2Proof.Machine

/-! ## Encoding -/

/-- No operand of a well-formed instruction is lost between encoder and decoder (30_encoding.md R51 to R61). -/
def Obligations.DecodeOfEncodeGivesTheInstruction : Prop :=
  ∀ i : Instr, i.wellFormed = true → decode (encode i).word (encode i).payload = .ok i

/-- A command that decodes is the encoding of the one instruction it decodes to: no bit of a legal word goes unread
(R51 to R61). -/
def Obligations.EachCommandDecodesToOneWellFormedInstruction : Prop :=
  ∀ (cw : CommandWord) (s : List Byte) (i : Instr), decode cw s = .ok i → i.wellFormed = true ∧ encode i = ⟨cw, s⟩

/-- R54: the match and mask columns, what selecting a row means, and that no word selects two rows. -/
def Obligations.NoWordSelectsTwoRows : Prop :=
  rows.map (fun r => (r.pattern, r.mask)) =
    [ (0x0000000000000001, 0xFFFFFFFFFFFFFFFF), (0x0000000000000002, 0xFFFFFFFFFFFFFEFF),
      (0x0000000000000003, 0xFFFFFFFFFFFF00FF), (0x0000000000000004, 0xFFFFFFFFFFFFFEFF),
      (0x0000000000000005, 0xFFFFFFFFFFFFFFFF), (0x0000000000000006, 0xFFFFFFFF00FF00FF),
      (0x0000000000000007, 0xFFFFFFFFFF0000FF), (0x0000000000000008, 0x00000000FFFFFFFF) ] ∧
  (∀ (r : Row) (cw : CommandWord), r.selects cw = true ↔ cw &&& r.mask = r.pattern) ∧
  ∀ cw : CommandWord, ∀ r₁ ∈ rows, ∀ r₂ ∈ rows, r₁.selects cw = true → r₂.selects cw = true → r₁ = r₂

/-- A few words written out from R51 to R54, and what they decode to (the examples of R65 and of 95_test_vectors.md). -/
def Obligations.SpecWordsDecodeAsWritten : Prop :=
  decode 0x0000000000000001 [] = .ok .start ∧
  decode 0x0000000000000102 [] = .ok (.setDisplay true) ∧
  decode 0x0000000000000703 [] = .ok (.setBrightness 7) ∧
  decode 0x0000000000000104 [] = .ok (.colon true) ∧
  decode 0x0000000000000005 [] = .ok .clear ∧
  decode 0x0000000002000106 [0x30, 0x31] = .ok (.writeBinary 1 [0x30, 0x31]) ∧
  decode 0x0000000000050207 [] = .ok (.writeDigit 2 5) ∧
  decode 0x000004D200000008 [] = .ok (.writeNumber 1234) ∧
  decode 0xFFFFFFFF00000008 [] = .ok (.writeNumber (-1))

/-- What decodes is exactly a legal word with the payload length its opcode and L ask for (R54, R61, R62). -/
def Obligations.ExactlyTheLegalCommandsDecode : Prop :=
  ∀ c : Command, (∃ i, decode c.word c.payload = .ok i) ↔ legalCommand c = true

/-- R64: the length is 8 bytes and, for WRITE_BINARY only, L more, told from OP and L alone; it is the length of the encoded command,
and a command of another payload length does not decode. -/
def Obligations.CommandLengthIsToldByTheWord : Prop :=
  (∀ cw : CommandWord, commandBytes cw = if fieldOp cw = 0x06 then 8 + (fieldL cw).toNat else 8) ∧
  (∀ i : Instr, i.wellFormed = true → commandBytes (encode i).word = 8 + (encode i).payload.length) ∧
  ∀ (cw : CommandWord) (s : List Byte) (i : Instr), decode cw s = .ok i → commandBytes cw = 8 + s.length

/-- The assembler (R65, R66) gives only commands that decode, and each of the four names of R66 gives its one command. -/
def Obligations.AssembledLinesDecode : Prop :=
  (∀ (line : String) (c : Command), assemble line = some c →
    ∃ i, parseLine line = some i ∧ i.wellFormed = true ∧ decode c.word c.payload = .ok i) ∧
  assemble "DISPLAY_ON" = some ⟨0x0000000000000102, []⟩ ∧ assemble "DISPLAY_OFF" = some ⟨0x0000000000000002, []⟩ ∧
  assemble "COLON_ON" = some ⟨0x0000000000000104, []⟩ ∧ assemble "COLON_OFF" = some ⟨0x0000000000000004, []⟩

/-! ## The step: acceptance, waiting, reset -/

/-- R28: a presented command is latched in IDLE, then decoded, then executed: the validation's error, or the run of the command's
list; one that does not decode ends with no request. The CW, S, SEQ and K of a next state that is IDLE are the model's choice (log
entry 12). -/
def Obligations.StepAcceptsDecodesAndExecutes : Prop :=
  ∀ (s : State) (c : Command) (rest : List Command),
    s.resetLine = false → s.phase = .idle → s.commandPort = c :: rest →
    (∀ i, decode c.word c.payload = .ok i →
      step s = exec i { s with phase := .busy, cw := c.word, payload := c.payload, commandPort := rest } ∧
      (∀ code, plan i = .error code →
        step s = .next { s with phase := .idle, cw := c.word, payload := c.payload, commandPort := rest,
                                result := some ⟨code, none⟩ }) ∧
      (∀ reqs, plan i = .ok reqs →
        step s = .next (run reqs { s with phase := .busy, cw := c.word, payload := c.payload, commandPort := rest }))) ∧
    (∀ e, decode c.word c.payload = .error e →
      step s = .next { s with phase := .idle, cw := c.word, payload := c.payload, commandPort := rest,
                              result := some ⟨.errIllegalCommand, none⟩ })

/-- R61, R62: reserved opcodes, nonzero must-be-zero fields and wrong payload lengths raise ERR_ILLEGAL_COMMAND and issue no
request. The CW, S, SEQ and K of the IDLE next state are the model's choice (log entry 12). -/
def Obligations.IllegalCommandsIssueNoRequest : Prop :=
  ∀ (s : State) (c : Command) (rest : List Command),
    s.resetLine = false → s.phase = .idle → s.commandPort = c :: rest → legalCommand c = false →
    step s = .next { s with phase := .idle, cw := c.word, payload := c.payload, commandPort := rest,
                            result := some ⟨.errIllegalCommand, none⟩ }

/-- R15: in BUSY no command is accepted and the presented ones wait; BUSY ends exactly when a result is written. That CW and S keep
their values also where the next state is IDLE is the model's choice (log entry 12). -/
def Obligations.BusyHoldsPresentedCommands : Prop :=
  (∀ s : State, s.resetLine = false → s.phase = .busy →
    ∃ t, step s = .next t ∧ t.commandPort = s.commandPort ∧ t.cw = s.cw ∧ t.payload = s.payload ∧
      ((t.phase = .busy ∧ t.result = s.result) ∨ (t.phase = .idle ∧ t.result ≠ none))) ∧
  (∀ (s : State) (c : Command) (rest : List Command),
    s.resetLine = false → s.phase = .idle → s.commandPort = c :: rest →
    ∃ t, step s = .next t ∧ t.commandPort = rest ∧ t.cw = c.word ∧ t.payload = c.payload ∧
      ((t.phase = .busy ∧ t.result = s.result) ∨ (t.phase = .idle ∧ t.result ≠ none)))

/-- R105: after reset the ENCODER is IDLE, and with no command presented it waits. -/
def Obligations.IdleEncoderWaitsForACommand : Prop :=
  State.reset.phase = .idle ∧
  ∀ s : State, s.resetLine = false → s.phase = .idle → s.commandPort = [] → step s = .next s

/-- R30: a running command whose request is never answered stays BUSY for ever, whatever commands wait at the port. -/
def Obligations.UnansweredRequestHangsTheCommand : Prop :=
  ∀ (s : State) (n : Nat), s.resetLine = false → s.phase = .busy → s.k < s.seq.length → s.answers = [] →
    core.run n s = .next s

/-- R102: what reset leaves, from any state and at power-on; the latches are left unspecified by the rule and by this statement. -/
def Obligations.ResetLeavesIdleAndEmptyLog : Prop :=
  (State.reset.phase = .idle ∧ State.reset.result = none ∧ State.reset.log = []) ∧
  (∀ s : State, s.resetLine = true →
    ∃ t, step s = .next t ∧ t.phase = .idle ∧ t.result = none ∧ t.log = [] ∧ t.resetLine = false) ∧
  segRom.toList = [0x0C3F, 0x0006, 0x00DB, 0x004F, 0x00E6, 0x00ED, 0x00FD, 0x0007, 0x00FF, 0x00EF]

/-- Reset while BUSY abandons the command (R103): its request in flight loses its answer and the next command's requests take the
draws after it. That the waiting commands stay at the port is the model's choice (log entry 2), and so is the place of the dropped
draw (log entry 4). -/
def Obligations.ResetAbandonsTheRunningCommand : Prop :=
  ∀ s : State, s.resetLine = true → s.phase = .busy → s.k < s.seq.length →
    ∃ t, step s = .next t ∧ t.phase = .idle ∧ t.result = none ∧ t.log = [] ∧
      t.answers = s.answers.drop 1 ∧ t.commandPort = s.commandPort ∧ t.inFlight = none

/-- No command and no state makes the machine stop: every command is available at all times (60_exceptions.md R96) and every error is
a result (R92, R93). -/
def Obligations.EveryCommandAndStepAnswersANextState : Prop :=
  (∀ (i : Instr) (s : State), ∃ t, exec i s = .next t) ∧ ∀ s : State, ∃ t, step s = .next t

/-! ## The sequencer -/

/-- R27, of any list of requests. Every response `Ok`: each request is issued once, in order, and the command ends in OK. A response
`Fail(e)`: it ends there in (ERR_TRANSPORT, e). No response yet: it waits there. The SEQ and K of a next state that is IDLE are the
model's choice (log entry 12). -/
def Obligations.RunIssuesEveryRequestInOrder : Prop :=
  (∀ (reqs : List Request) (s : State) (as rest : List Answer),
    as.length = reqs.length → allOk as = true → s.answers = as ++ rest →
    run reqs s = { s with seq := reqs, k := reqs.length, answers := rest, log := s.log ++ logOf reqs as,
                          phase := .idle, result := some ⟨.ok, none⟩ }) ∧
  (∀ (before later : List Request) (r : Request) (s : State) (as rest : List Answer) (e : FailValue),
    as.length = before.length → allOk as = true → s.answers = as ++ .fail e :: rest →
    run (before ++ r :: later) s =
      { s with seq := before ++ r :: later, k := before.length, answers := rest,
               log := s.log ++ logOf before as ++ [⟨r, .fail e⟩], phase := .idle, result := some ⟨.errTransport, some e⟩ }) ∧
  ∀ (before later : List Request) (r : Request) (s : State),
    s.answers.length = before.length → allOk s.answers = true →
    run (before ++ r :: later) s =
      { s with seq := before ++ r :: later, k := before.length, answers := [], log := s.log ++ logOf before s.answers }

/-- R27, R30, of every command: where the TRANSPORT has answered only the first requests, the command waits, with K at the next request,
nothing more issued, no result written and the phase as it was. -/
def Obligations.CommandsWaitAtTheUnansweredRequest : Prop :=
  ∀ (i : Instr) (before later : List Request) (r : Request) (s : State),
    plan i = .ok (before ++ r :: later) → s.answers.length = before.length → allOk s.answers = true →
    exec i s = .next { s with seq := before ++ r :: later, k := before.length, answers := [],
                              log := s.log ++ logOf before s.answers }

/-- R90, of every command: the failure value goes to RESULT.E unchanged, the failed request is the last entry of LOG, the requests
before it stay issued, and later ones are never issued. The SEQ and K of a next state that is IDLE are the model's choice (log entry
12). -/
def Obligations.TransportFailureEndsTheCommand : Prop :=
  ∀ (i : Instr) (before later : List Request) (r : Request) (s : State) (as rest : List Answer) (e : FailValue),
    plan i = .ok (before ++ r :: later) →
    as.length = before.length → allOk as = true → s.answers = as ++ .fail e :: rest →
    exec i s = .next { s with seq := before ++ r :: later, k := before.length, answers := rest,
                              log := s.log ++ logOf before as ++ [⟨r, .fail e⟩],
                              phase := .idle, result := some ⟨.errTransport, some e⟩ }

/-- Whether the TRANSPORT's answers come at once or in two parts makes no difference to where a command ends (R27, R46): a command
left waiting goes on from its waiting state as if it had never waited. That one step runs as far as the answers reach is the model's
choice (log entry 5). -/
def Obligations.AnswersInPartsEndInTheSameState : Prop :=
  ∀ (i : Instr) (s t : State) (as bs : List Answer),
    s.resetLine = false → s.phase = .busy → exec i { s with answers := as } = .next t →
    (t.phase = .busy → step { t with answers := bs } = exec i { s with answers := as ++ bs }) ∧
    (t.phase = .idle → exec i { s with answers := as ++ bs } = .next { t with answers := t.answers ++ bs })

/-- LOG only grows while reset is not asserted, and each new entry takes one answer, in order (R32, R46). -/
def Obligations.LogOnlyGrowsInAnswerOrder : Prop :=
  ∀ s t : State, s.resetLine = false → step s = .next t →
    ∃ new : List LogEntry, t.log = s.log ++ new ∧ s.answers.length = new.length + t.answers.length ∧
      t.answers = s.answers.drop new.length ∧
      new.map LogEntry.response =
        (new.zip s.answers).map fun p => respond p.1.request p.2

/-- R113: the request counts of the eight commands, and that a command ends after at most nine responses. -/
def Obligations.CommandsEndWithinNineResponses : Prop :=
  (requestCount .start = 5 ∧ requestCount .clear = 5 ∧
    ∀ (on : Bool) (level pos digit n : Nat) (chars : List Byte),
      requestCount (.setDisplay on) = 1 ∧ requestCount (.setBrightness level) = 1 ∧ requestCount (.colon on) = 1 ∧
      requestCount (.writeBinary pos chars) = 1 ∧ requestCount (.writeDigit pos digit) = 1 ∧
      requestCount (.writeNumber n) = 5 + (Nat.digits 10 n).length) ∧
  (∀ (i : Instr) (reqs : List Request), plan i = .ok reqs →
    reqs.length = requestCount i ∧ reqs.length ≤ 9) ∧
  (∀ (i : Instr) (s t : State), 9 ≤ s.answers.length → exec i s = .next t →
    t.phase = .idle ∧ t.result ≠ none ∧ t.log.length ≤ s.log.length + 9) ∧
  (∀ (s : State) (c : Command) (rest : List Command),
    s.resetLine = false → s.phase = .idle → s.commandPort = c :: rest →
    (∀ i, decode c.word c.payload = .ok i → ∃ code, plan i = .error code) →
    ∃ t, step s = .next t ∧ t.phase = .idle ∧ t.log = s.log ∧ t.answers = s.answers)

/-! ## The commands: what each issues and the result it leaves -/

/-- R67, R68: from any state, whatever earlier commands did, START issues its five requests in order and stops at the first that
fails. The SEQ and K of a next state that is IDLE are the model's choice (log entry 12). -/
def Obligations.StartIssuesItsFiveRequests : Prop :=
  encode .start = ⟨0x0000000000000001, []⟩ ∧
  ∀ reqs : List Request,
    reqs = [ .openBus Config.construction.devAddr Config.construction.bus, .writeByte 0x21, .readByte,
             .writeByte 0x81, .writeByte 0xEF ] →
    (∀ (s : State) (v₁ v₂ v₃ v₄ v₅ : Byte) (rest : List Answer),
      s.answers = .ok v₁ :: .ok v₂ :: .ok v₃ :: .ok v₄ :: .ok v₅ :: rest →
      exec .start s = .next { s with
        seq := reqs, k := 5, answers := rest, phase := .idle, result := some ⟨.ok, none⟩,
        log := s.log ++ [ ⟨.openBus Config.construction.devAddr Config.construction.bus, .ok⟩, ⟨.writeByte 0x21, .ok⟩,
                          ⟨.readByte, .okByte v₃⟩, ⟨.writeByte 0x81, .ok⟩, ⟨.writeByte 0xEF, .ok⟩ ] }) ∧
    (∀ (s : State) (before later : List Request) (r : Request) (as rest : List Answer) (e : FailValue),
      reqs = before ++ r :: later → as.length = before.length → allOk as = true → s.answers = as ++ .fail e :: rest →
      exec .start s = .next { s with
        seq := reqs, k := before.length, answers := rest, phase := .idle, result := some ⟨.errTransport, some e⟩,
        log := s.log ++ logOf before as ++ [⟨r, .fail e⟩] })

/-- R37: the dummy read's value does not matter, its success does; START alone reads, once. -/
def Obligations.DummyReadValueIsIgnored : Prop :=
  (∀ (s t t' : State) (x y v v' : Byte) (rest : List Answer),
    exec .start { s with answers := .ok x :: .ok y :: .ok v :: rest } = .next t →
    exec .start { s with answers := .ok x :: .ok y :: .ok v' :: rest } = .next t' →
    { t with log := [] } = { t' with log := [] } ∧ t.log.map LogEntry.request = t'.log.map LogEntry.request ∧
    t.view = t'.view) ∧
  (∀ (s : State) (x y : Byte) (e : FailValue) (rest : List Answer),
    s.answers = .ok x :: .ok y :: .fail e :: rest →
    ∃ t, exec .start s = .next t ∧ t.phase = .idle ∧ t.result = some ⟨.errTransport, some e⟩ ∧
      t.log = s.log ++ [ ⟨.openBus Config.construction.devAddr Config.construction.bus, .ok⟩, ⟨.writeByte 0x21, .ok⟩,
                         ⟨.readByte, .fail e⟩ ]) ∧
  ∀ (i : Instr) (reqs : List Request), plan i = .ok reqs → reqs.count .readByte = if i = .start then 1 else 0

/-- R69. SET_DISPLAY writes 0x81 or 0x80 and completes. The SEQ and K of a next state that is IDLE are the model's choice (log entry
12). -/
def Obligations.SetDisplayWritesItsCommandByte : Prop :=
  ∀ on : Bool, encode (.setDisplay on) = ⟨if on then 0x0000000000000102 else 0x0000000000000002, []⟩ ∧
  ∀ b : Byte, b = (if on then 0x81 else 0x80) →
    (∀ (s : State) (v : Byte) (rest : List Answer), s.answers = .ok v :: rest →
      exec (.setDisplay on) s = .next { s with
        seq := [.writeByte b], k := 1, answers := rest, phase := .idle, result := some ⟨.ok, none⟩,
        log := s.log ++ [⟨.writeByte b, .ok⟩] }) ∧
    (∀ (s : State) (e : FailValue) (rest : List Answer), s.answers = .fail e :: rest →
      exec (.setDisplay on) s = .next { s with
        seq := [.writeByte b], k := 0, answers := rest, phase := .idle, result := some ⟨.errTransport, some e⟩,
        log := s.log ++ [⟨.writeByte b, .fail e⟩] })

/-- R70, R71: every level completes, and levels above 15 write 0xEF. The SEQ and K of a next state that is IDLE are the model's
choice (log entry 12). -/
def Obligations.SetBrightnessClampsAndWrites : Prop :=
  ∀ level : Nat, level < 256 →
    encode (.setBrightness level) = ⟨(0x0000000000000003 : CommandWord) ||| (BitVec.ofNat 64 level <<< 8), []⟩ ∧
    ∀ b : Byte, b = 0xE0 ||| BitVec.ofNat 8 (if level ≤ 15 then level else 15) →
      (∀ (s : State) (v : Byte) (rest : List Answer), s.answers = .ok v :: rest →
        exec (.setBrightness level) s = .next { s with
          seq := [.writeByte b], k := 1, answers := rest, phase := .idle, result := some ⟨.ok, none⟩,
          log := s.log ++ [⟨.writeByte b, .ok⟩] }) ∧
      (∀ (s : State) (e : FailValue) (rest : List Answer), s.answers = .fail e :: rest →
        exec (.setBrightness level) s = .next { s with
          seq := [.writeByte b], k := 0, answers := rest, phase := .idle, result := some ⟨.errTransport, some e⟩,
          log := s.log ++ [⟨.writeByte b, .fail e⟩] })

/-- R72: every command byte is the OR of its register byte with a field value of the low nibble, and the OR equals the sum. The
split of 0x21 into 0x20 and 0x01 is the spec's inference, stated by no source (R40; log entry 8, DEDUCED). -/
def Obligations.CommandByteOrIsASum : Prop :=
  (oscillatorByte = 0x20 ||| 0x01 ∧ oscillatorByte = 0x20 + 0x01) ∧
  (∀ (on : Bool) (f : Byte), f = (if on then 0x01 else 0x00) → displayByte on = 0x80 ||| f ∧ displayByte on = 0x80 + f) ∧
  ∀ (level : Nat) (f : Byte), f = BitVec.ofNat 8 (min level 15) →
    brightnessByte level = 0xE0 ||| f ∧ brightnessByte level = 0xE0 + f ∧ (brightnessByte level).extractLsb' 4 4 = 0xE

/-- R73: COLON writes the colon slot and no other, and no digit command writes it. The SEQ and K of a next state that is IDLE are
the model's choice (log entry 12). -/
def Obligations.ColonWritesTheColonSlot : Prop :=
  (∀ (pos digit : Nat) (chars : List Byte) (reqs : List Request) (w : Word16),
    (plan (.writeDigit pos digit) = .ok reqs ∨ plan (.writeBinary pos chars) = .ok reqs) → .writeWord 0x04 w ∉ reqs) ∧
  ∀ on : Bool, encode (.colon on) = ⟨if on then 0x0000000000000104 else 0x0000000000000004, []⟩ ∧
  ∀ w : Word16, w = (if on then 0x0002 else 0x0000) →
    (∀ (s : State) (v : Byte) (rest : List Answer), s.answers = .ok v :: rest →
      exec (.colon on) s = .next { s with
        seq := [.writeWord 0x04 w], k := 1, answers := rest, phase := .idle, result := some ⟨.ok, none⟩,
        log := s.log ++ [⟨.writeWord 0x04 w, .ok⟩] }) ∧
    (∀ (s : State) (e : FailValue) (rest : List Answer), s.answers = .fail e :: rest →
      exec (.colon on) s = .next { s with
        seq := [.writeWord 0x04 w], k := 0, answers := rest, phase := .idle, result := some ⟨.errTransport, some e⟩,
        log := s.log ++ [⟨.writeWord 0x04 w, .fail e⟩] })

/-- R75. CLEAR writes 0x0000 to the five slots in ascending order and stops at the first failure. The SEQ and K of a next state that
is IDLE are the model's choice (log entry 12). -/
def Obligations.ClearWritesZeroToFiveSlots : Prop :=
  encode .clear = ⟨0x0000000000000005, []⟩ ∧
  ∀ reqs : List Request,
    reqs = [ .writeWord 0x00 0x0000, .writeWord 0x02 0x0000, .writeWord 0x04 0x0000, .writeWord 0x06 0x0000,
             .writeWord 0x08 0x0000 ] →
    (∀ (s : State) (v₁ v₂ v₃ v₄ v₅ : Byte) (rest : List Answer),
      s.answers = .ok v₁ :: .ok v₂ :: .ok v₃ :: .ok v₄ :: .ok v₅ :: rest →
      ∃ t, exec .clear s = .next t ∧
        t = { s with
          seq := reqs, k := 5, answers := rest, phase := .idle, result := some ⟨.ok, none⟩,
          log := s.log ++ [ ⟨.writeWord 0x00 0x0000, .ok⟩, ⟨.writeWord 0x02 0x0000, .ok⟩, ⟨.writeWord 0x04 0x0000, .ok⟩,
                            ⟨.writeWord 0x06 0x0000, .ok⟩, ⟨.writeWord 0x08 0x0000, .ok⟩ ] } ∧
        t.view.ram = Vector.replicate 5 (some 0x0000) ∧
        t.view.osc = s.view.osc ∧ t.view.disp = s.view.disp ∧ t.view.dim = s.view.dim) ∧
    (∀ (s : State) (before later : List Request) (r : Request) (as rest : List Answer) (e : FailValue),
      reqs = before ++ r :: later → as.length = before.length → allOk as = true → s.answers = as ++ .fail e :: rest →
      exec .clear s = .next { s with
        seq := reqs, k := before.length, answers := rest, phase := .idle, result := some ⟨.errTransport, some e⟩,
        log := s.log ++ logOf before as ++ [⟨r, .fail e⟩] })

/-- R77: `parse_binary` on every string: malformed, overlong and its value, the value read as base-2 digits with S[0] the most
significant; it fits exactly when at most 16 characters follow the leading zeros. -/
def Obligations.BinaryStringsParseAsBaseTwo : Prop :=
  (∀ s : List Byte, parseBinary s = .malformed ↔ (s = [] ∨ ∃ c ∈ s, c ≠ 0x30 ∧ c ≠ 0x31)) ∧
  (∀ s : List Byte, s ≠ [] → (∀ c ∈ s, c = 0x30 ∨ c = 0x31) →
    (parseBinary s = .overlong ↔ 16 < (s.dropWhile (· == 0x30)).length) ∧
    ∀ v, parseBinary s = .value v ↔
      ((s.dropWhile (· == 0x30)).length ≤ 16 ∧
        v.toNat = Nat.ofDigits 2 (s.reverse.map fun c => c.toNat - 0x30)))

/-- R76: the position is checked first, a malformed string before an overlong one, none with a request; else the one write. The SEQ
and K of a next state that is IDLE are the model's choice (log entry 12). -/
def Obligations.WriteBinaryChecksThenWritesOneWord : Prop :=
  (∀ (pos : Nat) (chars : List Byte), pos < 256 → chars.length < 256 →
    encode (.writeBinary pos chars) =
      ⟨(0x0000000000000006 : CommandWord) ||| (BitVec.ofNat 64 pos <<< 8) ||| (BitVec.ofNat 64 chars.length <<< 24), chars⟩) ∧
  (∀ (pos : Nat) (chars : List Byte) (s : State), 3 < pos →
    exec (.writeBinary pos chars) s = .next { s with phase := .idle, result := some ⟨.errPositionRange, none⟩ }) ∧
  (∀ (pos : Nat) (chars : List Byte) (s : State), pos ≤ 3 → (chars = [] ∨ ∃ c ∈ chars, c ≠ 0x30 ∧ c ≠ 0x31) →
    exec (.writeBinary pos chars) s = .next { s with phase := .idle, result := some ⟨.errBinaryMalformed, none⟩ }) ∧
  (∀ (pos : Nat) (chars : List Byte) (s : State), pos ≤ 3 → chars ≠ [] → (∀ c ∈ chars, c = 0x30 ∨ c = 0x31) →
    0xFFFF < Nat.ofDigits 2 (chars.reverse.map fun c => c.toNat - 0x30) →
    exec (.writeBinary pos chars) s = .next { s with phase := .idle, result := some ⟨.errBinaryOverlong, none⟩ }) ∧
  (∀ (pos : Nat) (chars : List Byte) (w : Word16) (o : Byte), chars ≠ [] → (∀ c ∈ chars, c = 0x30 ∨ c = 0x31) →
    w.toNat = Nat.ofDigits 2 (chars.reverse.map fun c => c.toNat - 0x30) →
    (pos, o) ∈ [(0, 0x00), (1, 0x02), (2, 0x06), (3, 0x08)] →
    (∀ (s : State) (v : Byte) (rest : List Answer), s.answers = .ok v :: rest →
      exec (.writeBinary pos chars) s = .next { s with
        seq := [.writeWord o w], k := 1, answers := rest, phase := .idle, result := some ⟨.ok, none⟩,
        log := s.log ++ [⟨.writeWord o w, .ok⟩] }) ∧
    (∀ (s : State) (e : FailValue) (rest : List Answer), s.answers = .fail e :: rest →
      exec (.writeBinary pos chars) s = .next { s with
        seq := [.writeWord o w], k := 0, answers := rest, phase := .idle, result := some ⟨.errTransport, some e⟩,
        log := s.log ++ [⟨.writeWord o w, .fail e⟩] }))

/-- R79: the position is checked first, then the digit, each with zero requests; else the digit's pattern at the position's offset.
The SEQ and K of a next state that is IDLE are the model's choice (log entry 12). -/
def Obligations.WriteDigitChecksThenWritesItsPattern : Prop :=
  (∀ pos digit : Nat, pos < 256 → digit < 256 →
    encode (.writeDigit pos digit) =
      ⟨(0x0000000000000007 : CommandWord) ||| (BitVec.ofNat 64 pos <<< 8) ||| (BitVec.ofNat 64 digit <<< 16), []⟩) ∧
  (∀ (pos digit : Nat) (s : State), 3 < pos →
    exec (.writeDigit pos digit) s = .next { s with phase := .idle, result := some ⟨.errPositionRange, none⟩ }) ∧
  (∀ (pos digit : Nat) (s : State), pos ≤ 3 → 9 < digit →
    exec (.writeDigit pos digit) s = .next { s with phase := .idle, result := some ⟨.errDigitTooLarge, none⟩ }) ∧
  (∀ (pos digit : Nat) (o : Byte) (w : Word16),
    (pos, o) ∈ [(0, 0x00), (1, 0x02), (2, 0x06), (3, 0x08)] →
    (digit, w) ∈ [(0, 0x0C3F), (1, 0x0006), (2, 0x00DB), (3, 0x004F), (4, 0x00E6), (5, 0x00ED), (6, 0x00FD), (7, 0x0007),
                  (8, 0x00FF), (9, 0x00EF)] →
    (∀ (s : State) (v : Byte) (rest : List Answer), s.answers = .ok v :: rest →
      exec (.writeDigit pos digit) s = .next { s with
        seq := [.writeWord o w], k := 1, answers := rest, phase := .idle, result := some ⟨.ok, none⟩,
        log := s.log ++ [⟨.writeWord o w, .ok⟩] }) ∧
    (∀ (s : State) (e : FailValue) (rest : List Answer), s.answers = .fail e :: rest →
      exec (.writeDigit pos digit) s = .next { s with
        seq := [.writeWord o w], k := 0, answers := rest, phase := .idle, result := some ⟨.errTransport, some e⟩,
        log := s.log ++ [⟨.writeWord o w, .fail e⟩] }))

/-- R80: a digit write is the binary write of the digit's pattern. -/
def Obligations.WriteDigitIsWriteBinaryOfItsPattern : Prop :=
  ∀ (pos : Nat) (d : Fin 10) (chars : List Byte) (s : State),
    pos ≤ 3 → parseBinary chars = .value (seg d) → exec (.writeDigit pos d.val) s = exec (.writeBinary pos chars) s

/-- R81: `split` gives the four decimal digits, most significant first, and they make up the number. -/
def Obligations.SplitGivesTheFourDecimalDigits : Prop :=
  ∀ (n : Nat) (h : n ≤ 9999),
    (split n h).map Fin.val = [n / 1000, n / 100 % 10, n / 10 % 10, n % 10] ∧
    (∀ d ∈ split n h, d.val ≤ 9) ∧
    Nat.ofDigits 10 ((split n h).map Fin.val).reverse = n

/-- R82, R83: a negative number and one above 9999 end with their errors and no request; any other number issues CLEAR's five writes
and then its k significant digits at positions 4-k to 3 (R84, R85: none for 0), and the command ends in OK when all are answered
`Ok` and at the first that fails. The SEQ and K of a next state that is IDLE are the model's choice (log entry 12). -/
def Obligations.WriteNumberClearsThenWritesItsDigits : Prop :=
  (∀ n : Int, encode (.writeNumber n) = ⟨(0x0000000000000008 : CommandWord) ||| (BitVec.ofInt 64 n <<< 32), []⟩) ∧
  (∀ (n : Int) (s : State), n < 0 →
    exec (.writeNumber n) s = .next { s with phase := .idle, result := some ⟨.errNumberNegative, none⟩ }) ∧
  (∀ (n : Int) (s : State), 9999 < n →
    exec (.writeNumber n) s = .next { s with phase := .idle, result := some ⟨.errNumberTooLarge, none⟩ }) ∧
  ∀ (n : Nat) (reqs : List Request), n ≤ 9999 →
    reqs = [ .writeWord 0x00 0x0000, .writeWord 0x02 0x0000, .writeWord 0x04 0x0000, .writeWord 0x06 0x0000,
             .writeWord 0x08 0x0000 ] ++
           ([(0, 0x00), (1, 0x02), (2, 0x06), (3, 0x08)].drop (4 - (Nat.digits 10 n).length)).zipWith
             (fun (p : Nat × Byte) (d : Nat) => Request.writeWord p.2
               ([0x0C3F, 0x0006, 0x00DB, 0x004F, 0x00E6, 0x00ED, 0x00FD, 0x0007, 0x00FF, 0x00EF].getD d 0))
             (Nat.digits 10 n).reverse →
    (∀ (s : State) (as rest : List Answer), as.length = reqs.length → allOk as = true → s.answers = as ++ rest →
      exec (.writeNumber n) s = .next { s with
        seq := reqs, k := 5 + (Nat.digits 10 n).length, answers := rest, phase := .idle, result := some ⟨.ok, none⟩,
        log := s.log ++ logOf reqs as }) ∧
    (∀ (s : State) (before later : List Request) (r : Request) (as rest : List Answer) (e : FailValue),
      reqs = before ++ r :: later → as.length = before.length → allOk as = true → s.answers = as ++ .fail e :: rest →
      exec (.writeNumber n) s = .next { s with
        seq := reqs, k := before.length, answers := rest, phase := .idle, result := some ⟨.errTransport, some e⟩,
        log := s.log ++ logOf before as ++ [⟨r, .fail e⟩] })

/-- What the panel is commanded to show after a WRITE_NUMBER that ends in OK, whatever was shown before (R31, R83, R85, R86): each
digit at its slot, blank where it is a leading zero (all blank for 0), the colon off, and the other settings as they were. -/
def Obligations.WriteNumberCommandsTheWholePanel : Prop :=
  ∀ (n : Nat) (s t : State), n ≤ 9999 → s.phase = .busy →
    exec (.writeNumber n) s = .next t → t.phase = .idle → t.result = some ⟨.ok, none⟩ →
    ∀ shown : Nat → Option Word16,
      (∀ m, shown m = some (if n < m then 0x0000 else
        [0x0C3F, 0x0006, 0x00DB, 0x004F, 0x00E6, 0x00ED, 0x00FD, 0x0007, 0x00FF, 0x00EF].getD (n / m % 10) 0)) →
      t.view.ram.toList = [shown 1000, shown 100, some 0x0000, shown 10, shown 1] ∧
      t.view.osc = s.view.osc ∧ t.view.disp = s.view.disp ∧ t.view.dim = s.view.dim

/-- What START commands when it ends in OK (R31, R67, R107): oscillator on, display on, brightness 15, and no display data. -/
def Obligations.StartCommandsDisplayOnAtFullBrightness : Prop :=
  ∀ s t : State, s.phase = .busy → exec .start s = .next t → t.phase = .idle → t.result = some ⟨.ok, none⟩ →
    t.view.osc = .on ∧ t.view.disp = .on ∧ t.view.dim = some 15 ∧ t.view.ram = s.view.ram

/-! ## Frames and whole-machine rules -/

/-- What a command leaves unchanged, on every path of every command (R16, R27, R92): the latches, the port, the reset line and the
entries LOG already had; RESULT and the phase change only together, at its end; SEQ and K change only by a run of its own list. What
it says of CW, S, SEQ and K where the next state is IDLE is the model's choice (log entry 12). -/
def Obligations.CommandsLeaveLatchesAndPortUnchanged : Prop :=
  ∀ (i : Instr) (s t : State), exec i s = .next t →
    t.cw = s.cw ∧ t.payload = s.payload ∧ t.commandPort = s.commandPort ∧ t.resetLine = s.resetLine ∧
    (∃ new, t.log = s.log ++ new ∧ t.answers = s.answers.drop new.length ∧ new.length ≤ s.answers.length) ∧
    ((t.phase = s.phase ∧ t.result = s.result ∧ t.answers = []) ∨
      (t.phase = .idle ∧ ∃ c, t.result = some c ∧ c.wellFormed = true)) ∧
    ((t.seq = s.seq ∧ t.k = s.k) ∨ (plan i = .ok t.seq ∧ t.k ≤ t.seq.length))

/-- R89, R92: a validation error, of any command, writes RESULT and the phase and nothing else. That CW, S, SEQ and K stay as they
were is the model's choice (log entry 12). -/
def Obligations.ValidationErrorsChangeOnlyResultAndPhase : Prop :=
  ∀ (i : Instr) (code : ResultCode) (s : State), plan i = .error code →
    code.errorClass = .validationError ∧
    exec i s = .next { s with phase := .idle, result := some ⟨code, none⟩ }

/-- R50: every request a command adds to LOG is in the set of requests the ENCODER can issue, and each of that set is issued by some
command. -/
def Obligations.OnlyTheListedRequestsAreIssued : Prop :=
  (∀ r : Request, issuable r = true →
    ∃ (i : Instr) (reqs : List Request), i.wellFormed = true ∧ plan i = .ok reqs ∧ r ∈ reqs) ∧
  ∀ (i : Instr) (s t : State), exec i s = .next t → ∀ x ∈ t.log, x ∈ s.log ∨
    (x.request = .openBus Config.construction.devAddr Config.construction.bus ∨
     (∃ b : Byte, x.request = .writeByte b ∧ (b = 0x21 ∨ b = 0x80 ∨ b = 0x81 ∨ (0xE0 ≤ b.toNat ∧ b.toNat ≤ 0xEF))) ∨
     x.request = .readByte ∨
     (∃ (o : Byte) (w : Word16), x.request = .writeWord o w ∧ (o = 0x00 ∨ o = 0x02 ∨ o = 0x06 ∨ o = 0x08)) ∨
     x.request = .writeWord 0x04 0x0002 ∨ x.request = .writeWord 0x04 0x0000)

/-- R74: only COLON and the clear write the colon slot, COLON with 0x0002 or 0x0000 and the clear with 0x0000. -/
def Obligations.OnlyColonAndClearWriteTheColonSlot : Prop :=
  ∀ (i : Instr) (reqs : List Request) (w : Word16), plan i = .ok reqs → .writeWord 0x04 w ∈ reqs →
    (∃ on, i = .colon on ∧ w = if on then 0x0002 else 0x0000) ∨
    ((i = .clear ∨ ∃ n, i = .writeNumber n) ∧ w = 0x0000)

/-- R109: the oscillator-enable write is always followed directly by the dummy read, and only START writes it. -/
def Obligations.OscillatorEnableIsFollowedByTheDummyRead : Prop :=
  ∀ (i : Instr) (before later : List Request), plan i = .ok (before ++ .writeByte 0x21 :: later) →
    i = .start ∧ ∃ more, later = .readByte :: more

/-- R41: the position mapping, its four values, that it never gives the colon's offset, and that both commands that use it reject any
other position first. -/
def Obligations.PositionsSkipTheColonSlot : Prop :=
  (∀ p : Nat, p ≤ 3 → (physicalRegister p).toNat = if p < 2 then p * 2 else (p + 1) * 2) ∧
  [0, 1, 2, 3].map physicalRegister = [0x00, 0x02, 0x06, 0x08] ∧
  (∀ p q : Nat, p ≤ 3 → q ≤ 3 → physicalRegister p ≠ 0x04 ∧ (physicalRegister p = physicalRegister q → p = q)) ∧
  (∀ (p digit : Nat) (chars : List Byte) (reqs : List Request),
    (plan (.writeDigit p digit) = .ok reqs ∨ plan (.writeBinary p chars) = .ok reqs) → p ≤ 3 ∧ ∃ w, reqs = [.writeWord (physicalRegister p) w])

/-- An earlier result, log or sequence has no effect on the next command (R13, R93): two states with the same answers get the same new
entries and, if the command ends, the same result. -/
def Obligations.EarlierCommandsHaveNoEffect : Prop :=
  ∀ (i : Instr) (s₁ s₂ t₁ t₂ : State), s₁.answers = s₂.answers → s₁.phase = .busy → s₂.phase = .busy →
    exec i s₁ = .next t₁ → exec i s₂ = .next t₂ →
    t₁.phase = t₂.phase ∧ t₁.answers = t₂.answers ∧ (t₁.phase = .idle → t₁.result = t₂.result) ∧
    ∃ new, t₁.log = s₁.log ++ new ∧ t₂.log = s₂.log ++ new

/-- The commanded view (R31): all Unknown at first, then one entry of LOG after the other; what an `Ok` sets, a failed write makes
Unknown; OPEN and READ_BYTE change nothing; a write repeated changes nothing more (R45). -/
def Obligations.FailedWritesMakeTheirTargetUnknown : Prop :=
  commandedView [] = ⟨.unknown, .unknown, none, Vector.replicate 5 none⟩ ∧
  (∀ (log : List LogEntry) (x : LogEntry), commandedView (log ++ [x]) = viewEntry (commandedView log) x) ∧
  (∀ (v : CommandedView) (a : Byte) (n : Nat) (x : Response),
    viewEntry v ⟨.openBus a n, x⟩ = v ∧ viewEntry v ⟨.readByte, x⟩ = v) ∧
  (∀ (v : CommandedView) (e : FailValue),
    viewEntry v ⟨.writeByte 0x21, .fail e⟩ = { v with osc := .unknown } ∧
    viewEntry v ⟨.writeByte 0x21, .ok⟩ = { v with osc := .on } ∧
    viewEntry v ⟨.writeByte 0x80, .fail e⟩ = { v with disp := .unknown } ∧
    viewEntry v ⟨.writeByte 0x80, .ok⟩ = { v with disp := .off } ∧
    viewEntry v ⟨.writeByte 0x81, .fail e⟩ = { v with disp := .unknown } ∧
    viewEntry v ⟨.writeByte 0x81, .ok⟩ = { v with disp := .on }) ∧
  (∀ (v : CommandedView) (e : FailValue) (b : BitVec 4),
    viewEntry v ⟨.writeByte (0xE#4 ++ b), .fail e⟩ = { v with dim := none } ∧
    viewEntry v ⟨.writeByte (0xE#4 ++ b), .ok⟩ = { v with dim := some b }) ∧
  (∀ (v : CommandedView) (e : FailValue) (w : Word16) (n : Nat) (h : n < 5),
    viewEntry v ⟨.writeWord (BitVec.ofNat 8 (2 * n)) w, .fail e⟩ = { v with ram := v.ram.set n none } ∧
    viewEntry v ⟨.writeWord (BitVec.ofNat 8 (2 * n)) w, .ok⟩ = { v with ram := v.ram.set n (some w) }) ∧
  ∀ (v : CommandedView) (x : LogEntry), viewEntry (viewEntry v x) x = viewEntry v x

/-- R88's numbers, all distinct, with their classes. -/
def Obligations.ResultCodesAreTheSpecsNumbers : Prop :=
  [ResultCode.ok, .errIllegalCommand, .errPositionRange, .errDigitTooLarge, .errNumberTooLarge, .errNumberNegative,
    .errBinaryMalformed, .errBinaryOverlong, .errTransport].map ResultCode.number = (List.range 9).map (BitVec.ofNat 8) ∧
  [ResultCode.ok, .errIllegalCommand, .errPositionRange, .errDigitTooLarge, .errNumberTooLarge, .errNumberNegative,
    .errBinaryMalformed, .errBinaryOverlong, .errTransport].map ResultCode.errorClass =
    [.noError, .decodeError, .validationError, .validationError, .validationError, .validationError, .validationError,
      .validationError, .transportError] ∧
  ∀ a b : ResultCode, a.number = b.number → a = b

/-- R7, R8, R35: the device address and the bus number of every construction, and that OPEN is START's alone, with those of this
machine's construction. -/
def Obligations.ConstructionGivesAddressAndBus : Prop :=
  (∀ c : Config.Construction,
    (∀ a, c.devAddrOverride = some a → c.devAddr = a) ∧ (c.devAddrOverride = none → c.devAddr = 0x70) ∧
    (∀ n, c.busOverride = some n → c.bus = n) ∧ (c.busOverride = none → c.bus = c.transportDefaultBus)) ∧
  (∃ reqs, plan .start = .ok (.openBus Config.construction.devAddr Config.construction.bus :: reqs)) ∧
  ∀ (i : Instr) (reqs : List Request) (a : Byte) (n : Nat), plan i = .ok reqs → .openBus a n ∈ reqs →
    i = .start ∧ a = Config.construction.devAddr ∧ n = Config.construction.bus

/-! ## The invariant -/

/-- The invariant holds at reset. -/
def Obligations.ResetMeetsTheInvariant : Prop := State.reset.Inv

/-- Every step keeps the invariant: RESULT's E is there exactly for a transport error (R18), LOG holds only requests of R50 with responses of
their kind (R34), and in BUSY the latched command's own list is being run, with K at the next request and the last K entries of LOG its
requests before it (R16, R17, R27). -/
def Obligations.EveryStepKeepsTheInvariant : Prop :=
  ∀ s t : State, s.Inv → step s = .next t → t.Inv

/-- What the outside world does at the ports keeps the invariant too. -/
def Obligations.PortsKeepTheInvariant : Prop :=
  ∀ (s : State) (c : Command) (a : Answer), s.Inv → (s.present c).Inv ∧ (s.answer a).Inv ∧ s.assertReset.Inv

/-- R17: K stays within its 4 bits and cannot wrap, SEQ never holds more than nine requests, and the latched payload has at most 255
bytes (R16). -/
def Obligations.RunningCommandsStayInBounds : Prop :=
  ∀ s : State, s.Inv → s.phase = .busy → s.k ≤ 8 ∧ s.seq.length ≤ 9 ∧ s.payload.length ≤ 255

/-- R17: K starts at 0, advances by one for each `Ok` response and never goes back while a command runs. -/
def Obligations.SequencerOnlyAdvances : Prop :=
  ∀ s t : State, s.resetLine = false → s.phase = .busy → step s = .next t →
    t.seq = s.seq ∧ s.k ≤ t.k ∧
    ∃ new : List LogEntry, t.log = s.log ++ new ∧ t.k = s.k + (new.filter fun x => !x.failed).length
end

