-- ==== Sys2Proof/Laws/Decode.lean ====
section
/-! SUPPORT. Laws/Decode.lean: the fields of a packed word, a word from its fields, and when a word selects each row of the table. -/

namespace Sys2Proof

/-! The fields of a packed word (30_encoding.md R51). -/

theorem extract_low {v w : Nat} (x : BitVec v) (y : BitVec w) : BitVec.extractLsb' 0 w (x ++ y) = y :=
  BitVec.extractLsb'_append_eq_right

theorem extract_high {v w : Nat} (x : BitVec v) (y : BitVec w) (s k : Nat) :
    BitVec.extractLsb' (w + s) k (x ++ y) = BitVec.extractLsb' s k x := by
  rw [BitVec.extractLsb'_append_eq_ite, dif_neg (by omega), Nat.add_sub_cancel_left]

/-- The five parts of a word put together, taken apart again. -/
theorem extract_append5 (n : BitVec 32) (l b a o : Byte) :
    BitVec.extractLsb' 0 8 (n ++ l ++ b ++ a ++ o) = o ∧ BitVec.extractLsb' 8 8 (n ++ l ++ b ++ a ++ o) = a ∧
    BitVec.extractLsb' 16 8 (n ++ l ++ b ++ a ++ o) = b ∧ BitVec.extractLsb' 24 8 (n ++ l ++ b ++ a ++ o) = l ∧
    BitVec.extractLsb' 32 32 (n ++ l ++ b ++ a ++ o) = n := by
  refine ⟨extract_low _ _, ?_, ?_, ?_, ?_⟩
  · exact (extract_high _ _ 0 8).trans (extract_low _ _)
  · exact (extract_high _ _ 8 8).trans ((extract_high _ _ 0 8).trans (extract_low _ _))
  · exact (extract_high _ _ 16 8).trans ((extract_high _ _ 8 8).trans ((extract_high _ _ 0 8).trans (extract_low _ _)))
  · exact (extract_high _ _ 24 32).trans ((extract_high _ _ 16 32).trans ((extract_high _ _ 8 32).trans
      (BitVec.extractLsb'_append_eq_left)))

@[simp] theorem fieldOp_packWord (op : Byte) (a b l : Nat) (n : Int) : fieldOp (packWord op a b l n) = op :=
  (extract_append5 (BitVec.ofInt 32 n) (BitVec.ofNat 8 l) (BitVec.ofNat 8 b) (BitVec.ofNat 8 a) op).1

@[simp] theorem fieldA_packWord (op : Byte) (a b l : Nat) (n : Int) : fieldA (packWord op a b l n) = BitVec.ofNat 8 a :=
  (extract_append5 (BitVec.ofInt 32 n) (BitVec.ofNat 8 l) (BitVec.ofNat 8 b) (BitVec.ofNat 8 a) op).2.1

@[simp] theorem fieldB_packWord (op : Byte) (a b l : Nat) (n : Int) : fieldB (packWord op a b l n) = BitVec.ofNat 8 b :=
  (extract_append5 (BitVec.ofInt 32 n) (BitVec.ofNat 8 l) (BitVec.ofNat 8 b) (BitVec.ofNat 8 a) op).2.2.1

@[simp] theorem fieldL_packWord (op : Byte) (a b l : Nat) (n : Int) : fieldL (packWord op a b l n) = BitVec.ofNat 8 l :=
  (extract_append5 (BitVec.ofInt 32 n) (BitVec.ofNat 8 l) (BitVec.ofNat 8 b) (BitVec.ofNat 8 a) op).2.2.2.1

@[simp] theorem fieldN_packWord (op : Byte) (a b l : Nat) (n : Int) : fieldN (packWord op a b l n) = BitVec.ofInt 32 n :=
  (extract_append5 (BitVec.ofInt 32 n) (BitVec.ofNat 8 l) (BitVec.ofNat 8 b) (BitVec.ofNat 8 a) op).2.2.2.2

/-- A word is made of its five fields and nothing else. -/
theorem word_ext {x y : CommandWord} (ho : fieldOp x = fieldOp y) (ha : fieldA x = fieldA y) (hb : fieldB x = fieldB y)
    (hl : fieldL x = fieldL y) (hn : fieldN x = fieldN y) : x = y := by
  have e0 := congrArg BitVec.toNat ho
  have e1 := congrArg BitVec.toNat ha
  have e2 := congrArg BitVec.toNat hb
  have e3 := congrArg BitVec.toNat hl
  have e4 := congrArg BitVec.toNat hn
  simp only [fieldOp, fieldA, fieldB, fieldL, fieldN, BitVec.extractLsb'_toNat, Nat.shiftRight_eq_div_pow] at e0 e1 e2 e3 e4
  apply BitVec.eq_of_toNat_eq
  have hx := x.isLt
  have hy := y.isLt
  omega

theorem field_and (x y : CommandWord) : fieldOp (x &&& y) = fieldOp x &&& fieldOp y ∧ fieldA (x &&& y) = fieldA x &&& fieldA y ∧
    fieldB (x &&& y) = fieldB x &&& fieldB y ∧ fieldL (x &&& y) = fieldL x &&& fieldL y ∧
    fieldN (x &&& y) = fieldN x &&& fieldN y := by
  simp [fieldOp, fieldA, fieldB, fieldL, fieldN, BitVec.extractLsb'_and]

/-- Masking a word is masking its fields. -/
theorem and_eq_iff_fields (cw m p : CommandWord) : cw &&& m = p ↔
    fieldOp cw &&& fieldOp m = fieldOp p ∧ fieldA cw &&& fieldA m = fieldA p ∧ fieldB cw &&& fieldB m = fieldB p ∧
    fieldL cw &&& fieldL m = fieldL p ∧ fieldN cw &&& fieldN m = fieldN p := by
  obtain ⟨h0, h1, h2, h3, h4⟩ := field_and cw m
  constructor
  · rintro rfl
    exact ⟨h0.symm, h1.symm, h2.symm, h3.symm, h4.symm⟩
  · rintro ⟨e0, e1, e2, e3, e4⟩
    exact word_ext (h0.trans e0) (h1.trans e1) (h2.trans e2) (h3.trans e3) (h4.trans e4)

theorem byte_and_FE (a : Byte) : a &&& 0xFE = 0 ↔ a.toNat < 2 := by revert a; decide

theorem and_ones8 (x : Byte) : x &&& 0xFF = x := BitVec.and_allOnes (x := x)

theorem and_ones32 (x : BitVec 32) : x &&& 0xFFFFFFFF = x := BitVec.and_allOnes (x := x)

/-- The fields of a row's two words. -/
theorem row_fields (cw m p : CommandWord) (o a b l po pa pb pl : Byte) (n pn : BitVec 32)
    (hm : fieldOp m = o ∧ fieldA m = a ∧ fieldB m = b ∧ fieldL m = l ∧ fieldN m = n)
    (hp : fieldOp p = po ∧ fieldA p = pa ∧ fieldB p = pb ∧ fieldL p = pl ∧ fieldN p = pn) :
    cw &&& m = p ↔ fieldOp cw &&& o = po ∧ fieldA cw &&& a = pa ∧ fieldB cw &&& b = pb ∧ fieldL cw &&& l = pl ∧
      fieldN cw &&& n = pn := by
  obtain ⟨rfl, rfl, rfl, rfl, rfl⟩ := hm
  obtain ⟨rfl, rfl, rfl, rfl, rfl⟩ := hp
  exact and_eq_iff_fields cw m p

/-! When a word selects each row (R54), read field by field. -/

theorem start_mask (cw : CommandWord) : cw &&& 0xFFFFFFFFFFFFFFFF = 0x0000000000000001 ↔
    fieldOp cw = 0x01 ∧ fieldA cw = 0 ∧ fieldB cw = 0 ∧ fieldL cw = 0 ∧ fieldN cw = 0 := by
  rw [row_fields cw _ _ 0xFF 0xFF 0xFF 0xFF 0x01 0 0 0 0xFFFFFFFF 0 (by decide) (by decide), and_ones8, and_ones8, and_ones8,
    and_ones8, and_ones32]

theorem setDisplay_mask (cw : CommandWord) : cw &&& 0xFFFFFFFFFFFFFEFF = 0x0000000000000002 ↔
    fieldOp cw = 0x02 ∧ (fieldA cw).toNat < 2 ∧ fieldB cw = 0 ∧ fieldL cw = 0 ∧ fieldN cw = 0 := by
  rw [row_fields cw _ _ 0xFF 0xFE 0xFF 0xFF 0x02 0 0 0 0xFFFFFFFF 0 (by decide) (by decide), and_ones8, byte_and_FE, and_ones8,
    and_ones8, and_ones32]

theorem setBrightness_mask (cw : CommandWord) : cw &&& 0xFFFFFFFFFFFF00FF = 0x0000000000000003 ↔
    fieldOp cw = 0x03 ∧ fieldB cw = 0 ∧ fieldL cw = 0 ∧ fieldN cw = 0 := by
  rw [row_fields cw _ _ 0xFF 0 0xFF 0xFF 0x03 0 0 0 0xFFFFFFFF 0 (by decide) (by decide), and_ones8, and_ones8,
    and_ones8, and_ones32]
  simp

theorem colon_mask (cw : CommandWord) : cw &&& 0xFFFFFFFFFFFFFEFF = 0x0000000000000004 ↔
    fieldOp cw = 0x04 ∧ (fieldA cw).toNat < 2 ∧ fieldB cw = 0 ∧ fieldL cw = 0 ∧ fieldN cw = 0 := by
  rw [row_fields cw _ _ 0xFF 0xFE 0xFF 0xFF 0x04 0 0 0 0xFFFFFFFF 0 (by decide) (by decide), and_ones8, byte_and_FE, and_ones8,
    and_ones8, and_ones32]

theorem clear_mask (cw : CommandWord) : cw &&& 0xFFFFFFFFFFFFFFFF = 0x0000000000000005 ↔
    fieldOp cw = 0x05 ∧ fieldA cw = 0 ∧ fieldB cw = 0 ∧ fieldL cw = 0 ∧ fieldN cw = 0 := by
  rw [row_fields cw _ _ 0xFF 0xFF 0xFF 0xFF 0x05 0 0 0 0xFFFFFFFF 0 (by decide) (by decide), and_ones8, and_ones8, and_ones8,
    and_ones8, and_ones32]

theorem writeBinary_mask (cw : CommandWord) : cw &&& 0xFFFFFFFF00FF00FF = 0x0000000000000006 ↔
    fieldOp cw = 0x06 ∧ fieldB cw = 0 ∧ fieldN cw = 0 := by
  rw [row_fields cw _ _ 0xFF 0 0xFF 0 0x06 0 0 0 0xFFFFFFFF 0 (by decide) (by decide), and_ones8, and_ones8, and_ones32]
  simp

theorem writeDigit_mask (cw : CommandWord) : cw &&& 0xFFFFFFFFFF0000FF = 0x0000000000000007 ↔
    fieldOp cw = 0x07 ∧ fieldL cw = 0 ∧ fieldN cw = 0 := by
  rw [row_fields cw _ _ 0xFF 0 0 0xFF 0x07 0 0 0 0xFFFFFFFF 0 (by decide) (by decide), and_ones8, and_ones8, and_ones32]
  simp

theorem writeNumber_mask (cw : CommandWord) : cw &&& 0x00000000FFFFFFFF = 0x0000000000000008 ↔
    fieldOp cw = 0x08 ∧ fieldA cw = 0 ∧ fieldB cw = 0 ∧ fieldL cw = 0 := by
  rw [row_fields cw _ _ 0xFF 0xFF 0xFF 0xFF 0x08 0 0 0 0 0 (by decide) (by decide), and_ones8, and_ones8, and_ones8, and_ones8]
  simp

/-- The fields a word of row `m` may hold: the must-be-zero column of R54. -/
def rowFields (m : Mnemonic) (cw : CommandWord) : Prop :=
  match m with
  | .start         => fieldA cw = 0 ∧ fieldB cw = 0 ∧ fieldL cw = 0 ∧ fieldN cw = 0
  | .setDisplay    => (fieldA cw).toNat < 2 ∧ fieldB cw = 0 ∧ fieldL cw = 0 ∧ fieldN cw = 0
  | .setBrightness => fieldB cw = 0 ∧ fieldL cw = 0 ∧ fieldN cw = 0
  | .colon         => (fieldA cw).toNat < 2 ∧ fieldB cw = 0 ∧ fieldL cw = 0 ∧ fieldN cw = 0
  | .clear         => fieldA cw = 0 ∧ fieldB cw = 0 ∧ fieldL cw = 0 ∧ fieldN cw = 0
  | .writeBinary   => fieldB cw = 0 ∧ fieldN cw = 0
  | .writeDigit    => fieldL cw = 0 ∧ fieldN cw = 0
  | .writeNumber   => fieldA cw = 0 ∧ fieldB cw = 0 ∧ fieldL cw = 0

/-! A word written with shifts and ORs, as the encoding lines of the command rules write it (R69, R70, R76, R79, R83). -/

theorem field_or (x y : CommandWord) : fieldOp (x ||| y) = fieldOp x ||| fieldOp y ∧ fieldA (x ||| y) = fieldA x ||| fieldA y ∧
    fieldB (x ||| y) = fieldB x ||| fieldB y ∧ fieldL (x ||| y) = fieldL x ||| fieldL y ∧
    fieldN (x ||| y) = fieldN x ||| fieldN y := by
  simp [fieldOp, fieldA, fieldB, fieldL, fieldN, BitVec.extractLsb'_or]

/-- The fields of a byte value shifted to one of the four byte places. -/
theorem field_shift (x : Nat) (hx : x < 256) (s : Nat) (hs : s = 0 ∨ s = 8 ∨ s = 16 ∨ s = 24) :
    fieldOp (BitVec.ofNat 64 x <<< s) = BitVec.ofNat 8 (if s = 0 then x else 0) ∧
    fieldA (BitVec.ofNat 64 x <<< s) = BitVec.ofNat 8 (if s = 8 then x else 0) ∧
    fieldB (BitVec.ofNat 64 x <<< s) = BitVec.ofNat 8 (if s = 16 then x else 0) ∧
    fieldL (BitVec.ofNat 64 x <<< s) = BitVec.ofNat 8 (if s = 24 then x else 0) ∧
    fieldN (BitVec.ofNat 64 x <<< s) = 0 := by
  rcases hs with rfl | rfl | rfl | rfl <;> refine ⟨?_, ?_, ?_, ?_, ?_⟩ <;> apply BitVec.eq_of_toNat_eq <;>
    simp only [fieldOp, fieldA, fieldB, fieldL, fieldN, BitVec.extractLsb'_toNat, BitVec.toNat_shiftLeft, BitVec.toNat_ofNat,
      Nat.shiftLeft_eq, Nat.shiftRight_eq_div_pow, BitVec.ofNat_eq_ofNat] <;>
    simp <;> omega

/-- A packed word whose number field is zero, as an OR of shifted fields. -/
theorem packWord_eq_or (op a b l : Nat) (ho : op < 256) (ha : a < 256) (hb : b < 256) (hl : l < 256) :
    packWord (BitVec.ofNat 8 op) a b l 0 =
      BitVec.ofNat 64 op <<< 0 ||| BitVec.ofNat 64 a <<< 8 ||| BitVec.ofNat 64 b <<< 16 ||| BitVec.ofNat 64 l <<< 24 := by
  have fo := field_shift op ho 0 (by decide)
  have fa := field_shift a ha 8 (by decide)
  have fb := field_shift b hb 16 (by decide)
  have fl := field_shift l hl 24 (by decide)
  have split4 := fun x y z w : CommandWord => And.intro (field_or (x ||| y ||| z) w) (And.intro (field_or (x ||| y) z) (field_or x y))
  obtain ⟨⟨o1, a1, b1, l1, n1⟩, ⟨o2, a2, b2, l2, n2⟩, ⟨o3, a3, b3, l3, n3⟩⟩ :=
    split4 (BitVec.ofNat 64 op <<< 0) (BitVec.ofNat 64 a <<< 8) (BitVec.ofNat 64 b <<< 16) (BitVec.ofNat 64 l <<< 24)
  obtain ⟨fo0, fo1, fo2, fo3, fo4⟩ := fo
  obtain ⟨fa0, fa1, fa2, fa3, fa4⟩ := fa
  obtain ⟨fb0, fb1, fb2, fb3, fb4⟩ := fb
  obtain ⟨fl0, fl1, fl2, fl3, fl4⟩ := fl
  apply word_ext
  · rw [o1, o2, o3, fo0, fa0, fb0, fl0]; simp
  · rw [a1, a2, a3, fo1, fa1, fb1, fl1]; simp
  · rw [b1, b2, b3, fo2, fa2, fb2, fl2]; simp
  · rw [l1, l2, l3, fo3, fa3, fb3, fl3]; simp
  · rw [n1, n2, n3, fo4, fa4, fb4, fl4]; simp

/-- The fields of a number shifted to the N field. -/
theorem field_shift_number (n : Int) :
    fieldOp (BitVec.ofInt 64 n <<< 32) = 0 ∧ fieldA (BitVec.ofInt 64 n <<< 32) = 0 ∧ fieldB (BitVec.ofInt 64 n <<< 32) = 0 ∧
    fieldL (BitVec.ofInt 64 n <<< 32) = 0 ∧ fieldN (BitVec.ofInt 64 n <<< 32) = BitVec.ofInt 32 n := by
  have hs : (BitVec.ofInt 64 n <<< 32).toNat = (n % 2 ^ 64).toNat * 2 ^ 32 % 2 ^ 64 := by
    rw [BitVec.toNat_shiftLeft, BitVec.toNat_ofInt, Nat.shiftLeft_eq]; rfl
  refine ⟨?_, ?_, ?_, ?_, ?_⟩ <;> apply BitVec.eq_of_toNat_eq <;>
    simp only [fieldOp, fieldA, fieldB, fieldL, fieldN, BitVec.extractLsb'_toNat, hs, Nat.shiftRight_eq_div_pow,
      BitVec.toNat_ofInt] <;>
    simp <;> omega

/-- The command word of WRITE_NUMBER, as the encoding line of R83 writes it. -/
theorem packWord_number (n : Int) :
    packWord 0x08 0 0 0 n = (0x0000000000000008 : CommandWord) ||| (BitVec.ofInt 64 n <<< 32) := by
  obtain ⟨o, a, b, l, m⟩ := field_or 0x0000000000000008 (BitVec.ofInt 64 n <<< 32)
  obtain ⟨so, sa, sb, sl, sn⟩ := field_shift_number n
  apply word_ext <;> simp only [fieldOp_packWord, fieldA_packWord, fieldB_packWord, fieldL_packWord, fieldN_packWord]
  · rw [o, so]; decide
  · rw [a, sa]; decide
  · rw [b, sb]; decide
  · rw [l, sl]; decide
  · rw [m, sn]; simp [fieldN]

/-- A row of the table selects a word exactly when the word has the row's opcode and zeros in its must-be-zero fields. -/
theorem selects_iff {r : Row} (hr : r ∈ rows) (cw : CommandWord) :
    r.selects cw = true ↔ fieldOp cw = r.name.opcode ∧ rowFields r.name cw := by
  simp only [rows, List.mem_cons, List.not_mem_nil, or_false] at hr
  rcases hr with rfl | rfl | rfl | rfl | rfl | rfl | rfl | rfl <;> simp only [Row.selects, beq_iff_eq]
  · exact start_mask cw
  · exact setDisplay_mask cw
  · exact setBrightness_mask cw
  · exact colon_mask cw
  · exact clear_mask cw
  · exact writeBinary_mask cw
  · exact writeDigit_mask cw
  · exact writeNumber_mask cw

theorem opcode_injective {m m' : Mnemonic} (h : m.opcode = m'.opcode) : m = m' := by
  revert h; cases m <;> cases m' <;> decide

/-- Every row's name is in the table. -/
theorem exists_row (m : Mnemonic) : ∃ r ∈ rows, r.name = m := by cases m <;> simp [rows]

/-- The selected row, by opcode and must-be-zero fields. -/
theorem selectRow_eq_some_iff (cw : CommandWord) (m : Mnemonic) :
    selectRow cw = some m ↔ fieldOp cw = m.opcode ∧ rowFields m cw := by
  simp only [selectRow, Option.map_eq_some_iff]
  constructor
  · rintro ⟨r, hr, rfl⟩
    exact (selects_iff (List.mem_of_find?_eq_some hr) cw).mp (by simpa using List.find?_some (p := fun r : Row => r.selects cw) hr)
  · intro h
    obtain ⟨r, hr, rfl⟩ := exists_row m
    have hs := (selects_iff hr cw).mpr h
    cases hf : rows.find? (fun r => r.selects cw) with
    | none => exact absurd hs (by simpa using List.find?_eq_none.mp hf r hr)
    | some r' =>
      have h' := (selects_iff (List.mem_of_find?_eq_some hf) cw).mp (by simpa using List.find?_some (p := fun r : Row => r.selects cw) hf)
      exact ⟨r', rfl, opcode_injective (h'.1.symm.trans h.1)⟩

/-- What decoding answers, in one line. -/
theorem decode_eq_ok_iff (cw : CommandWord) (s : List Byte) (i : Instr) :
    decode cw s = .ok i ↔ ∃ m, selectRow cw = some m ∧ s.length = m.payloadLength cw ∧ i = m.operands cw s := by
  unfold decode
  cases selectRow cw with
  | none => simp
  | some m =>
    by_cases h : s.length = m.payloadLength cw <;> simp [h, eq_comm]

end Sys2Proof
end

