-- ==== Sys2Proof/Laws/Operands.lean ====
section
/-! SUPPORT. Laws/Operands.lean: what the pure functions over operands give: the string's value as base-2 digits, the parser's three
answers, the position mapping's four values and the ROM's ten. -/

namespace Sys2Proof.Machine

/-! The binary string (41_panel.md R77). -/

/-- The value of a string is that of its digits in base 2, `S[0]` the most significant. -/
theorem binaryValue_eq_ofDigits (s : List Byte) : binaryValue s = Nat.ofDigits 2 (s.reverse.map fun c => c.toNat - 0x30) := by
  have gen : ∀ (s : List Byte) (v : Nat), s.foldl (fun v c => 2 * v + (c.toNat - charZero.toNat)) v =
      v * 2 ^ s.length + Nat.ofDigits 2 (s.reverse.map fun c => c.toNat - 0x30) := by
    intro s
    induction s with
    | nil => simp
    | cons c s ih =>
      intro v
      rw [List.foldl_cons, ih]
      simp [Nat.ofDigits_append, charZero]
      ring
  simpa [binaryValue] using gen s 0

theorem parseBinary_of_bad (s : List Byte) (h : s = [] ∨ ∃ c ∈ s, c ≠ 0x30 ∧ c ≠ 0x31) : parseBinary s = .malformed := by
  rcases h with rfl | ⟨c, hc, h0, h1⟩
  · rfl
  · have hb : s.any (fun c => !isBinaryChar c) = true := List.any_eq_true.mpr ⟨c, hc, by
      simpa [isBinaryChar, charZero, charOne] using And.intro h0 h1⟩
    simp [parseBinary, hb]

theorem parseBinary_of_good (s : List Byte) (h0 : s ≠ []) (h : ∀ c ∈ s, c = 0x30 ∨ c = 0x31) :
    parseBinary s = if 0xFFFF < binaryValue s then .overlong else .value (BitVec.ofNat 16 (binaryValue s)) := by
  have hb : ¬ (s.any (fun c => !isBinaryChar c)) = true := by
    rw [List.any_eq_true]
    rintro ⟨c, hc, hx⟩
    rcases h c hc with rfl | rfl <;> simp [isBinaryChar, charZero, charOne] at hx
  unfold parseBinary
  rw [if_neg (by simpa using h0), if_neg hb]

/-! The tables. -/

theorem physicalRegister_values : physicalRegister 0 = 0x00 ∧ physicalRegister 1 = 0x02 ∧ physicalRegister 2 = 0x06 ∧
    physicalRegister 3 = 0x08 := by decide

theorem seg_eq_getD (d : Fin 10) :
    seg d = [0x0C3F, 0x0006, 0x00DB, 0x004F, 0x00E6, 0x00ED, 0x00FD, 0x0007, 0x00FF, 0x00EF].getD d.val 0 := by
  revert d; decide

theorem clearRequests_eq : clearRequests = [ .writeWord 0x00 0x0000, .writeWord 0x02 0x0000, .writeWord 0x04 0x0000,
    .writeWord 0x06 0x0000, .writeWord 0x08 0x0000 ] := rfl

/-- Every request of a scan is a digit write at a position from the start on. -/
theorem mem_scanDigits {r : Request} (ds : List (Fin 10)) :
    ∀ (pos : Nat) (seen : Bool), r ∈ scanDigits pos seen ds → ∃ p d, pos ≤ p ∧ p < pos + ds.length ∧ r = digitRequest p d := by
  induction ds with
  | nil => intro pos seen h; simp [scanDigits] at h
  | cons d ds ih =>
    intro pos seen h
    have later : ∀ b, r ∈ scanDigits (pos + 1) b ds → ∃ p d, pos ≤ p ∧ p < pos + (ds.length + 1) ∧ r = digitRequest p d := by
      intro b hb
      obtain ⟨p, d, h1, h2, h3⟩ := ih (pos + 1) b hb
      exact ⟨p, d, by omega, by omega, h3⟩
    unfold scanDigits at h
    split at h
    · rcases List.mem_cons.mp h with rfl | h
      · exact ⟨pos, d, by omega, by simp, rfl⟩
      · exact later true h
    · exact later false h

/-- The wire carries both bytes of a word in either order (20_memory.md R38). -/
theorem wireBytes_reverse (w : Word16) : wireBytes .highByteFirst w = (wireBytes .lowByteFirst w).reverse := rfl

end Sys2Proof.Machine
end

