-- ==== Sys2Proof/Laws/State.lean ====
section
/-! SUPPORT. Laws/State.lean: what each named update of the state leaves in each field, one lemma per field per update. -/

namespace Sys2Proof.Machine

@[simp] theorem State.accept_phase (c : Command) (rest : List Command) (s : State) : (s.accept c rest).phase = .busy := rfl
@[simp] theorem State.accept_cw (c : Command) (rest : List Command) (s : State) : (s.accept c rest).cw = c.word := rfl
@[simp] theorem State.accept_payload (c : Command) (rest : List Command) (s : State) : (s.accept c rest).payload = c.payload := rfl
@[simp] theorem State.accept_seq (c : Command) (rest : List Command) (s : State) : (s.accept c rest).seq = s.seq := rfl
@[simp] theorem State.accept_k (c : Command) (rest : List Command) (s : State) : (s.accept c rest).k = s.k := rfl
@[simp] theorem State.accept_result (c : Command) (rest : List Command) (s : State) : (s.accept c rest).result = s.result := rfl
@[simp] theorem State.accept_log (c : Command) (rest : List Command) (s : State) : (s.accept c rest).log = s.log := rfl
@[simp] theorem State.accept_commandPort (c : Command) (rest : List Command) (s : State) : (s.accept c rest).commandPort = rest := rfl
@[simp] theorem State.accept_answers (c : Command) (rest : List Command) (s : State) : (s.accept c rest).answers = s.answers := rfl
@[simp] theorem State.accept_resetLine (c : Command) (rest : List Command) (s : State) : (s.accept c rest).resetLine = s.resetLine := rfl

@[simp] theorem State.endCommand_phase (code : ResultCode) (e : Option FailValue) (s : State) : (s.endCommand code e).phase = .idle := rfl
@[simp] theorem State.endCommand_cw (code : ResultCode) (e : Option FailValue) (s : State) : (s.endCommand code e).cw = s.cw := rfl
@[simp] theorem State.endCommand_payload (code : ResultCode) (e : Option FailValue) (s : State) : (s.endCommand code e).payload = s.payload := rfl
@[simp] theorem State.endCommand_seq (code : ResultCode) (e : Option FailValue) (s : State) : (s.endCommand code e).seq = s.seq := rfl
@[simp] theorem State.endCommand_k (code : ResultCode) (e : Option FailValue) (s : State) : (s.endCommand code e).k = s.k := rfl
@[simp] theorem State.endCommand_result (code : ResultCode) (e : Option FailValue) (s : State) : (s.endCommand code e).result = some ⟨code, e⟩ := rfl
@[simp] theorem State.endCommand_log (code : ResultCode) (e : Option FailValue) (s : State) : (s.endCommand code e).log = s.log := rfl
@[simp] theorem State.endCommand_commandPort (code : ResultCode) (e : Option FailValue) (s : State) : (s.endCommand code e).commandPort = s.commandPort := rfl
@[simp] theorem State.endCommand_answers (code : ResultCode) (e : Option FailValue) (s : State) : (s.endCommand code e).answers = s.answers := rfl
@[simp] theorem State.endCommand_resetLine (code : ResultCode) (e : Option FailValue) (s : State) : (s.endCommand code e).resetLine = s.resetLine := rfl

@[simp] theorem State.loadSeq_phase (reqs : List Request) (s : State) : (s.loadSeq reqs).phase = s.phase := rfl
@[simp] theorem State.loadSeq_cw (reqs : List Request) (s : State) : (s.loadSeq reqs).cw = s.cw := rfl
@[simp] theorem State.loadSeq_payload (reqs : List Request) (s : State) : (s.loadSeq reqs).payload = s.payload := rfl
@[simp] theorem State.loadSeq_seq (reqs : List Request) (s : State) : (s.loadSeq reqs).seq = reqs := rfl
@[simp] theorem State.loadSeq_k (reqs : List Request) (s : State) : (s.loadSeq reqs).k = 0 := rfl
@[simp] theorem State.loadSeq_result (reqs : List Request) (s : State) : (s.loadSeq reqs).result = s.result := rfl
@[simp] theorem State.loadSeq_log (reqs : List Request) (s : State) : (s.loadSeq reqs).log = s.log := rfl
@[simp] theorem State.loadSeq_commandPort (reqs : List Request) (s : State) : (s.loadSeq reqs).commandPort = s.commandPort := rfl
@[simp] theorem State.loadSeq_answers (reqs : List Request) (s : State) : (s.loadSeq reqs).answers = s.answers := rfl
@[simp] theorem State.loadSeq_resetLine (reqs : List Request) (s : State) : (s.loadSeq reqs).resetLine = s.resetLine := rfl

@[simp] theorem State.record_phase (r : Request) (a : Answer) (rest : List Answer) (s : State) : (s.record r a rest).phase = s.phase := rfl
@[simp] theorem State.record_cw (r : Request) (a : Answer) (rest : List Answer) (s : State) : (s.record r a rest).cw = s.cw := rfl
@[simp] theorem State.record_payload (r : Request) (a : Answer) (rest : List Answer) (s : State) : (s.record r a rest).payload = s.payload := rfl
@[simp] theorem State.record_seq (r : Request) (a : Answer) (rest : List Answer) (s : State) : (s.record r a rest).seq = s.seq := rfl
@[simp] theorem State.record_k (r : Request) (a : Answer) (rest : List Answer) (s : State) : (s.record r a rest).k = s.k := rfl
@[simp] theorem State.record_result (r : Request) (a : Answer) (rest : List Answer) (s : State) : (s.record r a rest).result = s.result := rfl
@[simp] theorem State.record_log (r : Request) (a : Answer) (rest : List Answer) (s : State) : (s.record r a rest).log = s.log ++ [⟨r, respond r a⟩] := rfl
@[simp] theorem State.record_commandPort (r : Request) (a : Answer) (rest : List Answer) (s : State) : (s.record r a rest).commandPort = s.commandPort := rfl
@[simp] theorem State.record_answers (r : Request) (a : Answer) (rest : List Answer) (s : State) : (s.record r a rest).answers = rest := rfl
@[simp] theorem State.record_resetLine (r : Request) (a : Answer) (rest : List Answer) (s : State) : (s.record r a rest).resetLine = s.resetLine := rfl

@[simp] theorem State.advance_phase (s : State) : s.advance.phase = s.phase := rfl
@[simp] theorem State.advance_cw (s : State) : s.advance.cw = s.cw := rfl
@[simp] theorem State.advance_payload (s : State) : s.advance.payload = s.payload := rfl
@[simp] theorem State.advance_seq (s : State) : s.advance.seq = s.seq := rfl
@[simp] theorem State.advance_k (s : State) : s.advance.k = s.k + 1 := rfl
@[simp] theorem State.advance_result (s : State) : s.advance.result = s.result := rfl
@[simp] theorem State.advance_log (s : State) : s.advance.log = s.log := rfl
@[simp] theorem State.advance_commandPort (s : State) : s.advance.commandPort = s.commandPort := rfl
@[simp] theorem State.advance_answers (s : State) : s.advance.answers = s.answers := rfl
@[simp] theorem State.advance_resetLine (s : State) : s.advance.resetLine = s.resetLine := rfl

@[simp] theorem State.present_phase (c : Command) (s : State) : (s.present c).phase = s.phase := rfl
@[simp] theorem State.present_cw (c : Command) (s : State) : (s.present c).cw = s.cw := rfl
@[simp] theorem State.present_payload (c : Command) (s : State) : (s.present c).payload = s.payload := rfl
@[simp] theorem State.present_seq (c : Command) (s : State) : (s.present c).seq = s.seq := rfl
@[simp] theorem State.present_k (c : Command) (s : State) : (s.present c).k = s.k := rfl
@[simp] theorem State.present_result (c : Command) (s : State) : (s.present c).result = s.result := rfl
@[simp] theorem State.present_log (c : Command) (s : State) : (s.present c).log = s.log := rfl
@[simp] theorem State.present_commandPort (c : Command) (s : State) : (s.present c).commandPort = s.commandPort ++ [c] := rfl
@[simp] theorem State.present_answers (c : Command) (s : State) : (s.present c).answers = s.answers := rfl
@[simp] theorem State.present_resetLine (c : Command) (s : State) : (s.present c).resetLine = s.resetLine := rfl

@[simp] theorem State.answer_phase (a : Answer) (s : State) : (s.answer a).phase = s.phase := rfl
@[simp] theorem State.answer_cw (a : Answer) (s : State) : (s.answer a).cw = s.cw := rfl
@[simp] theorem State.answer_payload (a : Answer) (s : State) : (s.answer a).payload = s.payload := rfl
@[simp] theorem State.answer_seq (a : Answer) (s : State) : (s.answer a).seq = s.seq := rfl
@[simp] theorem State.answer_k (a : Answer) (s : State) : (s.answer a).k = s.k := rfl
@[simp] theorem State.answer_result (a : Answer) (s : State) : (s.answer a).result = s.result := rfl
@[simp] theorem State.answer_log (a : Answer) (s : State) : (s.answer a).log = s.log := rfl
@[simp] theorem State.answer_commandPort (a : Answer) (s : State) : (s.answer a).commandPort = s.commandPort := rfl
@[simp] theorem State.answer_answers (a : Answer) (s : State) : (s.answer a).answers = s.answers ++ [a] := rfl
@[simp] theorem State.answer_resetLine (a : Answer) (s : State) : (s.answer a).resetLine = s.resetLine := rfl

@[simp] theorem State.assertReset_phase (s : State) : s.assertReset.phase = s.phase := rfl
@[simp] theorem State.assertReset_cw (s : State) : s.assertReset.cw = s.cw := rfl
@[simp] theorem State.assertReset_payload (s : State) : s.assertReset.payload = s.payload := rfl
@[simp] theorem State.assertReset_seq (s : State) : s.assertReset.seq = s.seq := rfl
@[simp] theorem State.assertReset_k (s : State) : s.assertReset.k = s.k := rfl
@[simp] theorem State.assertReset_result (s : State) : s.assertReset.result = s.result := rfl
@[simp] theorem State.assertReset_log (s : State) : s.assertReset.log = s.log := rfl
@[simp] theorem State.assertReset_commandPort (s : State) : s.assertReset.commandPort = s.commandPort := rfl
@[simp] theorem State.assertReset_answers (s : State) : s.assertReset.answers = s.answers := rfl
@[simp] theorem State.assertReset_resetLine (s : State) : s.assertReset.resetLine = true := rfl

@[simp] theorem State.withFetchWord_phase (s : State) (nbits w : Nat) : (s.withFetchWord nbits w).phase = .idle := rfl
@[simp] theorem State.withFetchWord_cw (s : State) (nbits w : Nat) : (s.withFetchWord nbits w).cw = s.cw := rfl
@[simp] theorem State.withFetchWord_payload (s : State) (nbits w : Nat) : (s.withFetchWord nbits w).payload = s.payload := rfl
@[simp] theorem State.withFetchWord_seq (s : State) (nbits w : Nat) : (s.withFetchWord nbits w).seq = s.seq := rfl
@[simp] theorem State.withFetchWord_k (s : State) (nbits w : Nat) : (s.withFetchWord nbits w).k = s.k := rfl
@[simp] theorem State.withFetchWord_result (s : State) (nbits w : Nat) : (s.withFetchWord nbits w).result = s.result := rfl
@[simp] theorem State.withFetchWord_log (s : State) (nbits w : Nat) : (s.withFetchWord nbits w).log = s.log := rfl
@[simp] theorem State.withFetchWord_commandPort (s : State) (nbits w : Nat) : (s.withFetchWord nbits w).commandPort = tableCommand nbits w :: s.commandPort := rfl
@[simp] theorem State.withFetchWord_answers (s : State) (nbits w : Nat) : (s.withFetchWord nbits w).answers = s.answers := rfl
@[simp] theorem State.withFetchWord_resetLine (s : State) (nbits w : Nat) : (s.withFetchWord nbits w).resetLine = false := rfl

@[simp] theorem State.applyReset_phase (s : State) : s.applyReset.phase = .idle := rfl
@[simp] theorem State.applyReset_cw (s : State) : s.applyReset.cw = 0 := rfl
@[simp] theorem State.applyReset_payload (s : State) : s.applyReset.payload = [] := rfl
@[simp] theorem State.applyReset_seq (s : State) : s.applyReset.seq = [] := rfl
@[simp] theorem State.applyReset_k (s : State) : s.applyReset.k = 0 := rfl
@[simp] theorem State.applyReset_result (s : State) : s.applyReset.result = none := rfl
@[simp] theorem State.applyReset_log (s : State) : s.applyReset.log = [] := rfl
@[simp] theorem State.applyReset_commandPort (s : State) : s.applyReset.commandPort = s.commandPort := rfl
@[simp] theorem State.applyReset_answers (s : State) : s.applyReset.answers = if s.inFlight.isSome then s.answers.tail else s.answers := rfl
@[simp] theorem State.applyReset_resetLine (s : State) : s.applyReset.resetLine = false := rfl

@[simp] theorem State.reset_phase : State.reset.phase = .idle := rfl
@[simp] theorem State.reset_cw : State.reset.cw = 0 := rfl
@[simp] theorem State.reset_payload : State.reset.payload = [] := rfl
@[simp] theorem State.reset_seq : State.reset.seq = [] := rfl
@[simp] theorem State.reset_k : State.reset.k = 0 := rfl
@[simp] theorem State.reset_result : State.reset.result = none := rfl
@[simp] theorem State.reset_log : State.reset.log = [] := rfl
@[simp] theorem State.reset_commandPort : State.reset.commandPort = [] := rfl
@[simp] theorem State.reset_answers : State.reset.answers = [] := rfl
@[simp] theorem State.reset_resetLine : State.reset.resetLine = false := rfl

end Sys2Proof.Machine
end

