-- ==== Sys2Proof/Laws/Ops.lean ====
section
/-! SUPPORT. Laws/Ops.lean: what the shared operations can do, once: the sequencer's loop, and a command as its plan performed. -/

namespace Sys2Proof.Machine

/-! The log a list of draws makes. -/

@[simp] theorem logOf_nil_left (as : List Answer) : logOf [] as = [] := rfl
@[simp] theorem logOf_nil_right (reqs : List Request) : logOf reqs [] = [] := by simp [logOf]
@[simp] theorem logOf_cons (r : Request) (rs : List Request) (a : Answer) (as : List Answer) :
    logOf (r :: rs) (a :: as) = ⟨r, respond r a⟩ :: logOf rs as := rfl

@[simp] theorem allOk_nil : allOk [] = true := rfl
@[simp] theorem allOk_cons_ok (v : Byte) (as : List Answer) : allOk (.ok v :: as) = allOk as := by simp [allOk]
@[simp] theorem allOk_cons_fail (e : FailValue) (as : List Answer) : allOk (.fail e :: as) = false := by simp [allOk]

theorem logOf_length (reqs : List Request) (as : List Answer) (h : as.length = reqs.length) :
    (logOf reqs as).length = reqs.length := by simp [logOf, h]

theorem logOf_append (before later : List Request) (as bs : List Answer) (h : as.length = before.length) :
    logOf (before ++ later) (as ++ bs) = logOf before as ++ logOf later bs := by
  simp [logOf, List.zip_append h.symm]

@[simp] theorem failed_fail (r : Request) (e : FailValue) : LogEntry.failed ⟨r, .fail e⟩ = true := rfl

@[simp] theorem failed_respond_ok (r : Request) (v : Byte) : LogEntry.failed ⟨r, respond r (.ok v)⟩ = false := by
  cases r <;> rfl

/-- No entry of an `Ok` answer failed. -/
theorem logOf_none_failed (reqs : List Request) :
    ∀ as : List Answer, allOk as = true → ∀ x ∈ logOf reqs as, x.failed = false := by
  induction reqs with
  | nil => simp
  | cons r rs ih =>
    intro as h
    cases as with
    | nil => simp
    | cons a as =>
      cases a with
      | fail e => simp at h
      | ok v => simpa using ih as (by simpa using h)

/-- The requests an answered list put into the log are the list itself. -/
theorem logOf_requests (reqs : List Request) (as : List Answer) (h : as.length = reqs.length) :
    (logOf reqs as).map LogEntry.request = reqs := by
  simp only [logOf, List.map_map]
  have hc : (LogEntry.request ∘ fun p : Request × Answer => ⟨p.1, respond p.1 p.2⟩) = Prod.fst := rfl
  rw [hc, List.map_fst_zip (by omega)]

/-- Each response in the log is the one its request and its answer make. -/
theorem logOf_responses (reqs : List Request) : ∀ as : List Answer,
    (logOf reqs as).map LogEntry.response = ((logOf reqs as).zip as).map fun p => respond p.1.request p.2 := by
  induction reqs with
  | nil => simp
  | cons r rs ih =>
    intro as
    cases as <;> simp_all

@[simp] theorem respond_fail (r : Request) (e : FailValue) : respond r (.fail e) = .fail e := rfl

/-! The loop, one turn at a time. -/

theorem drain_nil (s : State) : drain [] s = s.endCommand .ok none := rfl

theorem drain_cons_waiting (r : Request) (rs : List Request) (s : State) (h : s.answers = []) : drain (r :: rs) s = s := by
  simp [drain, h]

theorem drain_cons_fail (r : Request) (rs : List Request) (s : State) (e : FailValue) (rest : List Answer)
    (h : s.answers = .fail e :: rest) :
    drain (r :: rs) s = (s.record r (.fail e) rest).endCommand .errTransport (some e) := by
  simp [drain, h]

theorem drain_cons_ok (r : Request) (rs : List Request) (s : State) (v : Byte) (rest : List Answer)
    (h : s.answers = .ok v :: rest) :
    drain (r :: rs) s = drain rs (s.record r (.ok v) rest).advance := by
  simp [drain, h]

/-- The state after as many `Ok` answers as requests taken: what the loop has done so far. -/
def State.afterOks (s : State) (done : List Request) (as rest : List Answer) : State :=
  { s with k := s.k + done.length, log := s.log ++ logOf done as, answers := rest }

/-- The loop over requests that are answered `Ok` goes on with the requests after them. -/
theorem drain_append_oks (done later : List Request) :
    ∀ (s : State) (as rest : List Answer), as.length = done.length → allOk as = true → s.answers = as ++ rest →
      drain (done ++ later) s = drain later (s.afterOks done as rest) := by
  induction done with
  | nil =>
    intro s as rest hl _ ha
    obtain rfl : as = [] := List.length_eq_zero_iff.mp hl
    cases s; simp_all [State.afterOks]
  | cons r done ih =>
    intro s as rest hl hok ha
    cases as with
    | nil => simp at hl
    | cons a as =>
      cases a with
      | fail e => simp at hok
      | ok v =>
        rw [List.cons_append, drain_cons_ok r (done ++ later) s v (as ++ rest) (by simpa using ha),
          ih _ as rest (by simpa using hl) (by simpa using hok) rfl]
        congr 1
        simp [State.afterOks, State.record, State.advance, Nat.add_comm, Nat.add_left_comm]

/-- A list of answers is `Ok` throughout, or `Ok` up to a first failure. -/
theorem answers_cases (as : List Answer) :
    allOk as = true ∨ ∃ oks e rest, as = oks ++ .fail e :: rest ∧ allOk oks = true := by
  induction as with
  | nil => exact .inl rfl
  | cons a as ih =>
    cases a with
    | fail e => exact .inr ⟨[], e, as, rfl, rfl⟩
    | ok v =>
      rcases ih with h | ⟨oks, e, rest, rfl, h⟩
      · exact .inl (by simpa using h)
      · exact .inr ⟨.ok v :: oks, e, rest, rfl, by simpa using h⟩

theorem allOk_take (as : List Answer) (n : Nat) (h : allOk as = true) : allOk (as.take n) = true := by
  simp only [allOk, List.all_eq_true] at h ⊢
  exact fun a ha => h a (List.mem_of_mem_take ha)

/-- Everything the loop can do: it ends in OK after all its requests, it ends at a first failure, or it waits. -/
theorem drain_cases (reqs : List Request) (s : State) :
    (∃ as rest, s.answers = as ++ rest ∧ as.length = reqs.length ∧ allOk as = true ∧
      drain reqs s = (s.afterOks reqs as rest).endCommand .ok none) ∨
    (∃ before r later as e rest, reqs = before ++ r :: later ∧ s.answers = as ++ .fail e :: rest ∧
      as.length = before.length ∧ allOk as = true ∧
      drain reqs s = ((s.afterOks before as (.fail e :: rest)).record r (.fail e) rest).endCommand .errTransport (some e)) ∨
    (∃ before r later, reqs = before ++ r :: later ∧ s.answers.length = before.length ∧ allOk s.answers = true ∧
      drain reqs s = s.afterOks before s.answers []) := by
  induction reqs generalizing s with
  | nil => exact .inl ⟨[], s.answers, rfl, rfl, rfl, by simp [drain_nil, State.afterOks]⟩
  | cons r rs ih =>
    rcases ha : s.answers with _ | ⟨a, as⟩
    · exact .inr (.inr ⟨[], r, rs, rfl, rfl, rfl, by
        rw [drain_cons_waiting r rs s ha]; cases s; simp_all [State.afterOks]⟩)
    cases a with
    | fail e =>
      refine .inr (.inl ⟨[], r, rs, [], e, as, rfl, rfl, rfl, rfl, ?_⟩)
      rw [drain_cons_fail r rs s e as ha]
      simp [State.afterOks, State.record, State.endCommand]
    | ok v =>
      have hd := drain_cons_ok r rs s v as ha
      rcases ih (s.record r (.ok v) as).advance with ⟨bs, rest, h1, h2, h3, h4⟩ | ⟨before, q, later, bs, e, rest, h0, h1, h2, h3, h4⟩ |
        ⟨before, q, later, h0, h1, h2, h4⟩
      · refine .inl ⟨.ok v :: bs, rest, by simpa using h1, by simpa using h2, by simpa using h3, ?_⟩
        rw [hd, h4]
        simp [State.afterOks, State.record, State.advance, State.endCommand, Nat.add_comm, Nat.add_left_comm]
      · refine .inr (.inl ⟨r :: before, q, later, .ok v :: bs, e, rest, by simp [h0], by simpa using h1, by simpa using h2,
          by simpa using h3, ?_⟩)
        rw [hd, h4]
        simp [State.afterOks, State.record, State.advance, State.endCommand, Nat.add_comm, Nat.add_left_comm]
      · refine .inr (.inr ⟨r :: before, q, later, by simp [h0], by simpa using h1, by simpa using h2, ?_⟩)
        rw [hd, h4]
        simp [State.afterOks, State.record, State.advance, Nat.add_comm, Nat.add_left_comm]

/-- What the loop leaves: the latches, the port and the reset line as they were, LOG longer by the requests answered, K on by the `Ok`s
among them, and RESULT and the phase changed together or not at all. -/
theorem drain_frame (reqs : List Request) (s : State) :
    (drain reqs s).cw = s.cw ∧ (drain reqs s).payload = s.payload ∧ (drain reqs s).commandPort = s.commandPort ∧
    (drain reqs s).resetLine = s.resetLine ∧ (drain reqs s).seq = s.seq ∧
    (∃ new, (drain reqs s).log = s.log ++ new ∧ (drain reqs s).answers = s.answers.drop new.length ∧
      new.length ≤ s.answers.length ∧ new.length ≤ reqs.length ∧ new = logOf reqs (s.answers.take new.length) ∧
      (drain reqs s).k = s.k + (new.filter fun x => !x.failed).length) ∧
    (((drain reqs s).phase = s.phase ∧ (drain reqs s).result = s.result ∧ (drain reqs s).answers = []) ∨
      ((drain reqs s).phase = .idle ∧ ∃ c, (drain reqs s).result = some c ∧ c.wellFormed = true)) := by
  have hnf : ∀ as, allOk as = true → ∀ rs : List Request, (logOf rs as).filter (fun x => !x.failed) = logOf rs as :=
    fun as h rs => List.filter_eq_self.mpr fun x hx => by simp [logOf_none_failed rs as h x hx]
  rcases drain_cases reqs s with ⟨as, rest, h1, h2, h3, h4⟩ | ⟨before, r, later, as, e, rest, h0, h1, h2, h3, h4⟩ |
    ⟨before, r, later, h0, h1, h2, h4⟩
  · rw [h4]
    have hl := logOf_length reqs as h2
    refine ⟨rfl, rfl, rfl, rfl, rfl, ⟨logOf reqs as, rfl, ?_, ?_, by omega, ?_, ?_⟩, .inr ⟨rfl, _, rfl, rfl⟩⟩
    · simp [State.afterOks, h1, hl, ← h2]
    · simp [h1, hl, ← h2]
    · simp [h1, hl, ← h2]
    · simp [hnf as h3, hl, State.afterOks]
  · rw [h4]
    have hl := logOf_length before as h2
    have hl' : (logOf before as ++ [⟨r, .fail e⟩] : List LogEntry).length = as.length + 1 := by simp [hl, h2]
    refine ⟨rfl, rfl, rfl, rfl, rfl, ⟨logOf before as ++ [⟨r, .fail e⟩], ?_, ?_, ?_, ?_, ?_, ?_⟩, .inr ⟨rfl, _, rfl, rfl⟩⟩
    · simp [State.afterOks]
    · simp [h1, hl, ← h2]
    · simp [h1, hl, ← h2]
    · simp [hl, h0]
    · rw [hl', h1, h0, show (as ++ Answer.fail e :: rest).take (as.length + 1) = as ++ [.fail e] by simp [List.take_append], logOf_append before (r :: later) as [.fail e] h2]
      simp
    · simp [hnf as h3, hl, State.afterOks]
  · rw [h4]
    have hl := logOf_length before s.answers h1
    refine ⟨rfl, rfl, rfl, rfl, rfl, ⟨logOf before s.answers, rfl, ?_, ?_, ?_, ?_, ?_⟩, .inl ⟨rfl, rfl, rfl⟩⟩
    · simp [State.afterOks, hl, ← h1]
    · omega
    · simp [hl, h0]
    · rw [hl, ← h1, List.take_length, h0]
      simpa using (logOf_append before (r :: later) s.answers [] h1).symm
    · simp [hnf s.answers h2, hl, State.afterOks]

/-! A command is its plan performed. -/

/-- Every arm of exec performs its command's plan. -/
theorem exec_eq_perform (i : Instr) (s : State) : exec i s = perform (plan i) s := by
  cases i <;> rfl

theorem exec_of_plan_error {i : Instr} {code : ResultCode} (h : plan i = .error code) (s : State) :
    exec i s = .next (s.endCommand code none) := by
  rw [exec_eq_perform, h]; rfl

theorem exec_of_plan_ok {i : Instr} {reqs : List Request} (h : plan i = .ok reqs) (s : State) :
    exec i s = .next (run reqs s) := by
  rw [exec_eq_perform, h]; rfl

/-- Everything an instruction can do: raise its validation error, or run its list. -/
theorem exec_cases {i : Instr} {s t : State} (h : exec i s = .next t) :
    (∃ code, plan i = .error code ∧ t = s.endCommand code none) ∨ (∃ reqs, plan i = .ok reqs ∧ t = run reqs s) := by
  rcases hp : plan i with code | reqs
  · rw [exec_of_plan_error hp s, Host.Outcome.next.injEq] at h
    exact .inl ⟨code, rfl, h.symm⟩
  · rw [exec_of_plan_ok hp s, Host.Outcome.next.injEq] at h
    exact .inr ⟨reqs, rfl, h.symm⟩

/-- A validation error's code is one of the six of R88. -/
theorem plan_error_code {i : Instr} {code : ResultCode} (h : plan i = .error code) :
    code.errorClass = .validationError := by
  cases i <;> simp only [plan, planStart, planSetDisplay, planSetBrightness, planColon, planClear, planWriteBinary, planWriteDigit,
    planWriteNumber] at h <;> (repeat' split at h) <;> cases h <;> rfl

/-- Everything one step can do. -/
theorem step_cases {s t : State} (h : step s = .next t) :
    (s.resetLine = true ∧ t = s.applyReset) ∨
    (s.resetLine = false ∧ s.phase = .busy ∧ t = resume s) ∨
    (s.resetLine = false ∧ s.phase = .idle ∧ s.commandPort = [] ∧ t = s) ∨
    (s.resetLine = false ∧ s.phase = .idle ∧ ∃ c rest, s.commandPort = c :: rest ∧
      ((∃ e, decode c.word c.payload = .error e ∧ t = (s.accept c rest).endCommand .errIllegalCommand none) ∨
       (∃ i, decode c.word c.payload = .ok i ∧ exec i (s.accept c rest) = .next t))) := by
  unfold step at h
  cases hr : s.resetLine with
  | true => simp only [hr, if_true, Host.Outcome.next.injEq] at h; exact .inl ⟨rfl, h.symm⟩
  | false =>
    simp only [hr, Bool.false_eq_true, if_false] at h
    cases hp : s.phase with
    | busy => simp only [hp, Host.Outcome.next.injEq] at h; exact .inr (.inl ⟨rfl, rfl, h.symm⟩)
    | idle =>
      simp only [hp] at h
      cases hc : s.commandPort with
      | nil => simp only [hc, Host.Outcome.next.injEq] at h; exact .inr (.inr (.inl ⟨rfl, rfl, rfl, h.symm⟩))
      | cons c rest =>
        simp only [hc, execCommand] at h
        refine .inr (.inr (.inr ⟨rfl, rfl, c, rest, rfl, ?_⟩))
        split at h
        · next i hi => exact .inr ⟨i, hi, h⟩
        · next e he =>
          simp only [raise, Host.Outcome.next.injEq] at h
          exact .inl ⟨e, he, h.symm⟩

end Sys2Proof.Machine
end

