-- ==== Sys2Proof/Laws/PerInstr.lean ====
section
/-! SUPPORT. Laws/PerInstr.lean: per-instruction families. EncodeSelectsRow: a well-formed instruction's word selects its own row of the
table of 30_encoding.md R54. -/

namespace Sys2Proof.Laws.EncodeSelectsRow

/-- A well-formed instruction's command word selects the instruction's own row. -/
def Statement (i : Instr) : Prop := i.wellFormed = true → selectRow (encodeWord i) = some i.mnemonic

theorem start : Statement .start := fun _ =>
  (selectRow_eq_some_iff _ _).mpr ⟨by simp [encodeWord, Instr.mnemonic], by simp [encodeWord, Instr.mnemonic, rowFields]⟩

theorem setDisplay (on : Bool) : Statement (.setDisplay on) := fun _ =>
  (selectRow_eq_some_iff _ _).mpr ⟨by simp [encodeWord, Instr.mnemonic], by
    cases on <;> simp [encodeWord, Instr.mnemonic, rowFields, flagField]⟩

theorem setBrightness (level : Nat) : Statement (.setBrightness level) := fun _ =>
  (selectRow_eq_some_iff _ _).mpr ⟨by simp [encodeWord, Instr.mnemonic], by simp [encodeWord, Instr.mnemonic, rowFields]⟩

theorem colon (on : Bool) : Statement (.colon on) := fun _ =>
  (selectRow_eq_some_iff _ _).mpr ⟨by simp [encodeWord, Instr.mnemonic], by
    cases on <;> simp [encodeWord, Instr.mnemonic, rowFields, flagField]⟩

theorem clear : Statement .clear := fun _ =>
  (selectRow_eq_some_iff _ _).mpr ⟨by simp [encodeWord, Instr.mnemonic], by simp [encodeWord, Instr.mnemonic, rowFields]⟩

theorem writeBinary (pos : Nat) (chars : List Byte) : Statement (.writeBinary pos chars) := fun _ =>
  (selectRow_eq_some_iff _ _).mpr ⟨by simp [encodeWord, Instr.mnemonic], by simp [encodeWord, Instr.mnemonic, rowFields]⟩

theorem writeDigit (pos digit : Nat) : Statement (.writeDigit pos digit) := fun _ =>
  (selectRow_eq_some_iff _ _).mpr ⟨by simp [encodeWord, Instr.mnemonic], by simp [encodeWord, Instr.mnemonic, rowFields]⟩

theorem writeNumber (n : Int) : Statement (.writeNumber n) := fun _ =>
  (selectRow_eq_some_iff _ _).mpr ⟨by simp [encodeWord, Instr.mnemonic], by simp [encodeWord, Instr.mnemonic, rowFields]⟩

end Sys2Proof.Laws.EncodeSelectsRow
end

