-- ==== Sys2Proof/Laws/Plan.lean ====
section
/-! SUPPORT. Laws/Plan.lean: what a validated command's request list can hold, command by command. -/

namespace Sys2Proof.Machine

/-- Every request of a command's list, with the commands it can come from. -/
theorem mem_plan {i : Instr} {reqs : List Request} (h : plan i = .ok reqs) {r : Request} (hr : r ∈ reqs) :
    (i = .start ∧ r ∈ startRequests Config.construction) ∨
    (∃ on, i = .setDisplay on ∧ r = .writeByte (displayByte on)) ∨
    (∃ level, i = .setBrightness level ∧ r = .writeByte (brightnessByte level)) ∨
    (∃ on, i = .colon on ∧ r = .writeWord colonOffset (colonWord on)) ∨
    ((i = .clear ∨ ∃ n, i = .writeNumber n) ∧ r ∈ clearRequests) ∨
    (∃ p w, p ≤ 3 ∧ r = .writeWord (physicalRegister p) w) := by
  cases i with
  | start =>
    cases h
    exact .inl ⟨rfl, hr⟩
  | setDisplay on =>
    cases h
    exact .inr (.inl ⟨on, rfl, by simpa using hr⟩)
  | setBrightness level =>
    cases h
    exact .inr (.inr (.inl ⟨level, rfl, by simpa using hr⟩))
  | colon on =>
    cases h
    exact .inr (.inr (.inr (.inl ⟨on, rfl, by simpa using hr⟩)))
  | clear =>
    cases h
    exact .inr (.inr (.inr (.inr (.inl ⟨.inl rfl, hr⟩))))
  | writeBinary pos chars =>
    simp only [plan, planWriteBinary] at h
    split at h
    · cases h
    · split at h <;> cases h
      exact .inr (.inr (.inr (.inr (.inr ⟨pos, _, by omega, by simpa using hr⟩))))
  | writeDigit pos digit =>
    simp only [plan, planWriteDigit] at h
    split at h
    · cases h
    · split at h <;> cases h
      exact .inr (.inr (.inr (.inr (.inr ⟨pos, _, by omega, by simpa [digitRequest] using hr⟩))))
  | writeNumber n =>
    simp only [plan, planWriteNumber] at h
    split at h
    · cases h
    · split at h <;> cases h
      rcases List.mem_append.mp hr with hr | hr
      · exact .inr (.inr (.inr (.inr (.inl ⟨.inr ⟨n, rfl⟩, hr⟩))))
      · obtain ⟨p, d, -, h2, h3⟩ := mem_scanDigits _ _ _ hr
        exact .inr (.inr (.inr (.inr (.inr ⟨p, seg d, by simp [split] at h2; omega, h3⟩))))

/-- A brightness byte stays in its register's nibble, whatever the level (40_control.md R71). -/
theorem brightnessByte_range (level : Nat) : 0xE0 ≤ (brightnessByte level).toNat ∧ (brightnessByte level).toNat ≤ 0xEF := by
  have small : ∀ k, k < 16 → 0xE0 ≤ (brightnessRegister ||| BitVec.ofNat 8 k).toNat ∧
      (brightnessRegister ||| BitVec.ofNat 8 k).toNat ≤ 0xEF := by decide
  exact small (min level 15) (by omega)

/-- A log made of requests and answers holds only those requests, each with a response of its kind. -/
theorem mem_logOf {reqs : List Request} {as : List Answer} {x : LogEntry} (h : x ∈ logOf reqs as) :
    x.request ∈ reqs ∧ x.wellTyped = true := by
  simp only [logOf, List.mem_map] at h
  obtain ⟨⟨r, a⟩, hp, rfl⟩ := h
  exact ⟨(List.of_mem_zip hp).1, by cases a <;> cases r <;> rfl⟩

end Sys2Proof.Machine
end

