-- ==== Sys2Proof/Tests/Slice0.lean ====
section
/-! SUPPORT. Tests/Slice0.lean: named tests. Expected values come from spec/95_test_vectors.md (the vector's id stands in the comment) and
from the encodings of spec/30_encoding.md; the witnesses show states and operands that meet the hypotheses of the statements. -/

namespace Sys2Proof.Tests

open Sys2Proof.Machine

/-! ## WellFormed: each check refuses an ill-formed term -/

theorem test_wf_level : (Instr.setBrightness 256).wellFormed = false := by decide
theorem test_wf_binary_position : (Instr.writeBinary 256 []).wellFormed = false := by decide
theorem test_wf_binary_length : (Instr.writeBinary 0 (List.replicate 256 0x30)).wellFormed = false := by
  rw [Instr.wellFormed, fitsByte, fitsByte, List.length_replicate]; decide
theorem test_wf_digit_position : (Instr.writeDigit 256 0).wellFormed = false := by decide
theorem test_wf_digit_value : (Instr.writeDigit 0 256).wellFormed = false := by decide
theorem test_wf_number_high : (Instr.writeNumber 2147483648).wellFormed = false := by decide
theorem test_wf_number_low : (Instr.writeNumber (-2147483649)).wellFormed = false := by decide
theorem test_wf_out_of_range_operands_are_well_formed :
    (Instr.writeDigit 255 255).wellFormed = true ∧ (Instr.writeNumber (-2147483648)).wellFormed = true := by decide

/-! ## Decoding: words written out from R51 to R54 -/

/-- N = 0, L = 0, B = 0, A = 0, OP = 1 (V-S1). -/
theorem test_decode_start : decode (0x00000000#32 ++ 0x00#8 ++ 0x00#8 ++ 0x00#8 ++ 0x01#8) [] = .ok .start := by decide
/-- A = 1, OP = 2 (V-D1), and A = 0 (V-D2). -/
theorem test_decode_setDisplay : decode 0x0000000000000102 [] = .ok (.setDisplay true) ∧
    decode 0x0000000000000002 [] = .ok (.setDisplay false) := by decide
/-- A = 0xFF, OP = 3 (V-B5). -/
theorem test_decode_setBrightness : decode 0x000000000000FF03 [] = .ok (.setBrightness 255) := by decide
/-- A = 1, OP = 4 (V-C1), and A = 0 (V-C2). -/
theorem test_decode_colon : decode 0x0000000000000104 [] = .ok (.colon true) ∧
    decode 0x0000000000000004 [] = .ok (.colon false) := by decide
/-- OP = 5 (V-K1). -/
theorem test_decode_clear : decode 0x0000000000000005 [] = .ok .clear := by decide
/-- L = 1, A = 4, OP = 6, payload "x" (V-W10). -/
theorem test_decode_writeBinary : decode 0x0000000001000406 [0x78] = .ok (.writeBinary 4 [0x78]) := by decide
/-- B = 10, A = 4, OP = 7 (V-D8). -/
theorem test_decode_writeDigit : decode 0x00000000000A0407 [] = .ok (.writeDigit 4 10) := by decide
/-- N = 0x80000000, OP = 8 (V-N13), and N = 1234 (V-N8). -/
theorem test_decode_writeNumber : decode 0x8000000000000008 [] = .ok (.writeNumber (-2147483648)) ∧
    decode 0x000004D200000008 [] = .ok (.writeNumber 1234) := by decide
/-- V-X1 to V-X4. -/
theorem test_decode_rejects_reserved : decode 0x0000000000000000 [] = .error .reservedOpcode ∧
    decode 0x0000000000000009 [] = .error .reservedOpcode ∧ decode 0x00000000000000FF [] = .error .reservedOpcode ∧
    decode 0x0000000000000202 [] = .error .mustBeZero := by decide
/-- V-X5 to V-X9. -/
theorem test_decode_rejects_fields_and_lengths : decode 0x0000000000000101 [] = .error .mustBeZero ∧
    decode 0x0000000100000005 [] = .error .mustBeZero ∧ decode 0x0000000001000007 [] = .error .mustBeZero ∧
    decode 0x0000000002000006 [0x31] = .error .payloadLength ∧ decode 0x0000000000000001 [0x31] = .error .payloadLength := by decide
/-- The opcode table's own numbering, WRITE_BINARY with L = 2 and a payload of zeros. -/
theorem test_decodeTableWord : decodeTableWord 64 0x50207 = some (.writeDigit 2 5) ∧
    decodeTableWord 64 0x0000000002000106 = some (.writeBinary 1 [0x00, 0x00]) ∧ decodeTableWord 64 0x202 = none := by decide
/-- The examples of R65. -/
theorem test_assemble_examples : assemble "WRITE_DIGIT 2, 5" = some ⟨0x0000000000050207, []⟩ ∧
    assemble "WRITE_NUMBER 1234" = some ⟨0x000004D200000008, []⟩ ∧
    assemble "WRITE_BINARY 0, \"0000000001001111\"" = some ⟨0x0000000010000006,
      [0x30, 0x30, 0x30, 0x30, 0x30, 0x30, 0x30, 0x30, 0x30, 0x31, 0x30, 0x30, 0x31, 0x31, 0x31, 0x31]⟩ := by decide
/-- R65: hexadecimal and negative numbers, and the two refusals. -/
theorem test_assemble_numbers : assemble "SET_BRIGHTNESS 0x10" = some ⟨0x0000000000001003, []⟩ ∧
    assemble "WRITE_NUMBER -1" = some ⟨0xFFFFFFFF00000008, []⟩ ∧ assemble "SET_BRIGHTNESS 256" = none ∧
    assemble "WRITE_DIGIT 2" = none := by decide

/-! ## The commands: one step each -/

/-- A running ENCODER with the given answers to come. -/
def busyWith (as : List Answer) : State := { State.reset with phase := .busy, answers := as }

/-- An idle ENCODER with one command presented and the given answers to come. -/
def presented (word : CommandWord) (s : List Byte) (as : List Answer) : State :=
  { State.reset with commandPort := [⟨word, s⟩], answers := as }

/-- The requests in LOG and the result after one step. -/
def outcomeOf (s : State) : Option (List Request × Option (Byte × Option FailValue)) :=
  match step s with
  | .next t => some (t.log.map LogEntry.request, t.readResult)
  | .fault _ => none
  | .refused _ => none

/-- `n` answers `Ok`. -/
def oks (n : Nat) : List Answer := List.replicate n (.ok 0)

/-- V-S1: the five requests of START, and OK. -/
theorem test_start : outcomeOf (presented 0x1 [] (oks 5)) =
    some ([.openBus Config.construction.devAddr Config.construction.bus, .writeByte 0x21, .readByte, .writeByte 0x81, .writeByte 0xEF],
      some (0x00, none)) := rfl
/-- V-S4: READ_BYTE fails. -/
theorem test_start_read_fails : outcomeOf (presented 0x1 [] (oks 2 ++ [.fail 7])) =
    some ([.openBus Config.construction.devAddr Config.construction.bus, .writeByte 0x21, .readByte], some (0x08, some 7)) := rfl
/-- V-D2, V-D3. -/
theorem test_setDisplay : outcomeOf (presented 0x2 [] (oks 1)) = some ([.writeByte 0x80], some (0x00, none)) ∧
    outcomeOf (presented 0x102 [] [.fail 3]) = some ([.writeByte 0x81], some (0x08, some 3)) := by decide
/-- V-B2, V-B4. -/
theorem test_setBrightness : outcomeOf (presented 0x703 [] (oks 1)) = some ([.writeByte 0xE7], some (0x00, none)) ∧
    outcomeOf (presented 0x1003 [] (oks 1)) = some ([.writeByte 0xEF], some (0x00, none)) := by decide
/-- V-C1, V-C2. -/
theorem test_colon : outcomeOf (presented 0x104 [] (oks 1)) = some ([.writeWord 0x04 0x0002], some (0x00, none)) ∧
    outcomeOf (presented 0x004 [] (oks 1)) = some ([.writeWord 0x04 0x0000], some (0x00, none)) := by decide
/-- V-K2: the third write fails. -/
theorem test_clear : outcomeOf (presented 0x5 [] (oks 2 ++ [.fail 9])) =
    some ([.writeWord 0x00 0x0000, .writeWord 0x02 0x0000, .writeWord 0x04 0x0000], some (0x08, some 9)) := by decide
/-- V-W12: "1000000000000000" at position 2. -/
theorem test_writeBinary : outcomeOf (presented 0x0000000010000206 (0x31 :: List.replicate 15 0x30) (oks 1)) =
    some ([.writeWord 0x06 0x8000], some (0x00, none)) := by decide
/-- V-W5, V-W10, V-W11, V-W15. -/
theorem test_writeBinary_errors :
    outcomeOf (presented 0x0000000011000106 (0x31 :: List.replicate 16 0x30) []) = some ([], some (0x07, none)) ∧
    outcomeOf (presented 0x0000000001000406 [0x78] []) = some ([], some (0x02, none)) ∧
    outcomeOf (presented 0x0000000012000006 (0x31 :: 0x78 :: List.replicate 16 0x31) []) = some ([], some (0x06, none)) ∧
    outcomeOf (presented 0x0000000002000006 [0x2B, 0x31] []) = some ([], some (0x06, none)) :=
  ⟨by decide, by decide, by decide, by decide⟩
/-- V-D4, V-D5. -/
theorem test_writeDigit : outcomeOf (presented 0x50207 [] (oks 1)) = some ([.writeWord 0x06 0x00ED], some (0x00, none)) ∧
    outcomeOf (presented 0x00307 [] (oks 1)) = some ([.writeWord 0x08 0x0C3F], some (0x00, none)) := by decide
/-- V-D7, V-D8. -/
theorem test_writeDigit_errors : outcomeOf (presented 0xA0007 [] (oks 1)) = some ([], some (0x03, none)) ∧
    outcomeOf (presented 0xA0407 [] (oks 1)) = some ([], some (0x02, none)) := by decide
/-- V-N5: 305 writes positions 1 to 3 after the clear. -/
theorem test_writeNumber : outcomeOf (presented 0x0000013100000008 [] (oks 8)) =
    some ([.writeWord 0x00 0x0000, .writeWord 0x02 0x0000, .writeWord 0x04 0x0000, .writeWord 0x06 0x0000, .writeWord 0x08 0x0000,
      .writeWord 0x02 0x004F, .writeWord 0x06 0x0C3F, .writeWord 0x08 0x00ED], some (0x00, none)) := by decide
/-- V-N1 (no digit), V-N10, V-N12. -/
theorem test_writeNumber_edges : (outcomeOf (presented 0x0000000000000008 [] (oks 9))).map (fun p => p.1.length) = some 5 ∧
    outcomeOf (presented 0x0000271000000008 [] []) = some ([], some (0x04, none)) ∧
    outcomeOf (presented 0xFFFFFFFF00000008 [] []) = some ([], some (0x05, none)) := by decide
/-- V-X4: an illegal command. -/
theorem test_illegal_command : outcomeOf (presented 0x202 [] (oks 1)) = some ([], some (0x01, none)) := by decide
/-- A placed word is the command the very next step runs. -/
theorem test_withFetchWord : ∃ t, step (State.reset.withFetchWord 64 0x0005) = .next t ∧ t.phase = .busy ∧ t.seq.length = 5 ∧ t.k = 0 :=
  ⟨_, rfl, rfl, rfl, rfl⟩
/-- P4's step 1: after seven requests the failed slot is Unknown in the commanded view. -/
theorem test_view_after_failure : (match step (presented 0x000004D200000008 [] (oks 6 ++ [.fail 2])) with
    | .next t => t.view.ram.toList | .fault _ => [] | .refused _ => []) =
      [some 0x0006, none, some 0x0000, some 0x0000, some 0x0000] := by decide

/-! ## Witnesses: the hypotheses of the statements can be met -/

/-- The wellFormed hypothesis of the encoding statements, at the edges of the operands. -/
theorem witness_well_formed : (Instr.writeBinary 255 (List.replicate 255 0x30)).wellFormed = true ∧
    (Instr.setBrightness 255).wellFormed = true ∧ (Instr.writeNumber 2147483647).wellFormed = true ∧ Instr.start.wellFormed = true :=
  ⟨by rw [Instr.wellFormed, fitsByte, fitsByte, List.length_replicate]; decide, by decide, by decide, by decide⟩

/-- EachCommandDecodesToOneWellFormedInstruction. -/
theorem witness_decodes : decode 0x000000000200FF06 [0x31, 0x00] = .ok (.writeBinary 255 [0x31, 0x00]) := by decide

/-- NoWordSelectsTwoRows: a row and a word it selects. -/
theorem witness_row_selects : (rows[6]).selects 0x0000000000FFFF07 = true := by decide

/-- AssembledLinesDecode. -/
theorem witness_assembles : assemble "CLEAR" = some ⟨0x0000000000000005, []⟩ := by decide

/-- StepAcceptsDecodesAndExecutes, its two clauses; BusyHoldsPresentedCommands, second clause; CommandsEndWithinNineResponses, third. -/
theorem witness_accepts : (presented 0x5 [] []).resetLine = false ∧ (presented 0x5 [] []).phase = .idle ∧
    (presented 0x5 [] []).commandPort = ⟨0x5, []⟩ :: [] ∧ decode 0x5 [] = .ok .clear ∧
    decode 0x9 [] = .error .reservedOpcode ∧ decode 0x50407 [] = .ok (.writeDigit 4 5) ∧
    plan (.writeDigit 4 5) = .error .errPositionRange := by decide

/-- IllegalCommandsIssueNoRequest: a reserved opcode, a must-be-zero field, a wrong length. -/
theorem witness_illegal : legalCommand ⟨0x0, []⟩ = false ∧ legalCommand ⟨0x9, []⟩ = false ∧ legalCommand ⟨0x0000000100000005, []⟩ = false ∧
    legalCommand ⟨0x0000000002000006, [0x31]⟩ = false ∧ legalCommand ⟨0x8, []⟩ = true := by decide

/-- A running SET_DISPLAY whose one request is not answered. -/
def waitingDisplay : State := { State.reset with phase := .busy, cw := 0x102, seq := [.writeByte 0x81] }

/-- BusyHoldsPresentedCommands, UnansweredRequestHangsTheCommand, SequencerOnlyAdvances, LogOnlyGrowsInAnswerOrder. -/
theorem witness_busy : waitingDisplay.resetLine = false ∧ waitingDisplay.phase = .busy ∧ waitingDisplay.k < waitingDisplay.seq.length ∧
    waitingDisplay.answers = [] ∧ step waitingDisplay = .next waitingDisplay := ⟨rfl, rfl, by decide, rfl, rfl⟩

/-- SequencerOnlyAdvances and LogOnlyGrowsInAnswerOrder with an answer. -/
theorem witness_busy_answered : ∃ t, step (waitingDisplay.answer (.ok 0)) = .next t ∧ t.log = [⟨.writeByte 0x81, .ok⟩] ∧ t.k = 1 :=
  ⟨_, rfl, rfl, rfl⟩

/-- IdleEncoderWaitsForACommand. -/
theorem witness_idle : State.reset.resetLine = false ∧ State.reset.phase = .idle ∧ State.reset.commandPort = [] := ⟨rfl, rfl, rfl⟩

/-- ResetLeavesIdleAndEmptyLog and ResetAbandonsTheRunningCommand. -/
theorem witness_reset : (waitingDisplay.answer (.ok 0)).assertReset.resetLine = true ∧
    (waitingDisplay.answer (.ok 0)).assertReset.phase = .busy ∧
    (waitingDisplay.answer (.ok 0)).assertReset.k < (waitingDisplay.answer (.ok 0)).assertReset.seq.length := by decide

/-- RunIssuesEveryRequestInOrder. -/
theorem witness_run : (oks 5).length = clearRequests.length ∧ allOk (oks 5) = true ∧ (busyWith (oks 5)).answers = oks 5 ++ [] := by decide

/-- CommandsWaitAtTheUnansweredRequest, TransportFailureEndsTheCommand and RunIssuesEveryRequestInOrder's last two clauses, at the third
request of CLEAR. -/
theorem witness_partial_plan : plan .clear = .ok ([.writeWord 0x00 0x0000, .writeWord 0x02 0x0000] ++ .writeWord 0x04 0x0000 ::
      [.writeWord 0x06 0x0000, .writeWord 0x08 0x0000]) ∧
    (busyWith (oks 2)).answers.length = 2 ∧ allOk (busyWith (oks 2)).answers = true ∧
    (busyWith (oks 2 ++ [.fail 4])).answers = oks 2 ++ .fail 4 :: [] := by decide

/-- AnswersInPartsEndInTheSameState: its waiting clause and its finished clause. -/
theorem witness_parts : (∃ t, exec .clear { busyWith [] with answers := oks 2 } = .next t ∧ t.phase = .busy) ∧
    (∃ t, exec .clear { busyWith [] with answers := oks 5 } = .next t ∧ t.phase = .idle) := ⟨⟨_, rfl, rfl⟩, ⟨_, rfl, rfl⟩⟩

/-- CommandsEndWithinNineResponses, second clause; CommandsLeaveLatchesAndPortUnchanged; OnlyTheListedRequestsAreIssued. -/
theorem witness_nine_answers : 9 ≤ (busyWith (oks 9)).answers.length ∧ ∃ t, exec (.writeNumber 1234) (busyWith (oks 9)) = .next t :=
  ⟨by decide, _, rfl⟩

/-- StartIssuesItsFiveRequests: its answers, and its list cut at its first, third and last request. -/
theorem witness_start : (busyWith (oks 5)).answers = .ok 0 :: .ok 0 :: .ok 0 :: .ok 0 :: .ok 0 :: [] ∧
    startRequests Config.construction = [] ++ .openBus Config.construction.devAddr Config.construction.bus ::
      [.writeByte 0x21, .readByte, .writeByte 0x81, .writeByte 0xEF] ∧
    startRequests Config.construction = [.openBus Config.construction.devAddr Config.construction.bus, .writeByte 0x21] ++ .readByte ::
      [.writeByte 0x81, .writeByte 0xEF] ∧
    startRequests Config.construction = [.openBus Config.construction.devAddr Config.construction.bus, .writeByte 0x21, .readByte,
      .writeByte 0x81] ++ .writeByte 0xEF :: [] := ⟨rfl, rfl, rfl, rfl⟩

/-- DummyReadValueIsIgnored: two runs that differ in the byte read, one whose read fails, and a list that holds a read. -/
theorem witness_dummy_read : (∃ t, exec .start { busyWith [] with answers := .ok 0 :: .ok 0 :: .ok 0x00 :: oks 2 } = .next t) ∧
    (∃ t, exec .start { busyWith [] with answers := .ok 0 :: .ok 0 :: .ok 0xFF :: oks 2 } = .next t) ∧
    (busyWith [.ok 0, .ok 0, .fail 1]).answers = .ok 0 :: .ok 0 :: .fail 1 :: [] ∧
    plan .start = .ok (startRequests Config.construction) := ⟨⟨_, rfl⟩, ⟨_, rfl⟩, rfl, rfl⟩

/-- The one-request commands: an `Ok` and a failed answer (SetDisplayWritesItsCommandByte, SetBrightnessClampsAndWrites at levels 0, 15,
16 and 255, ColonWritesTheColonSlot). -/
theorem witness_one_request : (busyWith [.ok 0]).answers = .ok 0 :: [] ∧ (busyWith [.fail 1]).answers = .fail 1 :: [] ∧
    (0 : Nat) < 256 ∧ (15 : Nat) < 256 ∧ (16 : Nat) < 256 ∧ (255 : Nat) < 256 := by decide

/-- ClearWritesZeroToFiveSlots: its list cut at its first and last request. -/
theorem witness_clear : clearRequests = [] ++ .writeWord 0x00 0x0000 ::
      [.writeWord 0x02 0x0000, .writeWord 0x04 0x0000, .writeWord 0x06 0x0000, .writeWord 0x08 0x0000] ∧
    clearRequests = [.writeWord 0x00 0x0000, .writeWord 0x02 0x0000, .writeWord 0x04 0x0000, .writeWord 0x06 0x0000] ++
      .writeWord 0x08 0x0000 :: [] ∧ (busyWith (oks 4 ++ [.fail 1])).answers = oks 4 ++ .fail 1 :: [] := by decide

/-- BinaryStringsParseAsBaseTwo and WriteBinaryChecksThenWritesOneWord: positions 3 and 4; strings that are empty, malformed, of 16 and of
17 significant digits. -/
theorem witness_strings : ((∃ c ∈ ([0x31, 0x78] : List Byte), c ≠ 0x30 ∧ c ≠ 0x31) ∧
      (∀ c ∈ List.replicate 17 (0x31 : Byte), c = 0x30 ∨ c = 0x31) ∧
      0xFFFF < Nat.ofDigits 2 ((List.replicate 17 (0x31 : Byte)).reverse.map fun c => c.toNat - 0x30)) ∧
    (0xFFFF : Word16).toNat = Nat.ofDigits 2 ((List.replicate 16 (0x31 : Byte)).reverse.map fun c => c.toNat - 0x30) ∧
    3 < 4 ∧ ((3 : Nat), (0x08 : Byte)) ∈ [((0 : Nat), (0x00 : Byte)), (1, 0x02), (2, 0x06), (3, 0x08)] ∧ (255 : Nat) < 256 := by decide

/-- WriteDigitChecksThenWritesItsPattern: positions 3 and 4, digits 9 and 10. -/
theorem witness_digits : 3 < 4 ∧ (3 ≤ 3 ∧ 9 < 10) ∧
    ((3 : Nat), (0x08 : Byte)) ∈ [((0 : Nat), (0x00 : Byte)), (1, 0x02), (2, 0x06), (3, 0x08)] ∧
    ((9 : Nat), (0x00EF : Word16)) ∈ [((0 : Nat), (0x0C3F : Word16)), (1, 0x0006), (2, 0x00DB), (3, 0x004F), (4, 0x00E6), (5, 0x00ED),
      (6, 0x00FD), (7, 0x0007), (8, 0x00FF), (9, 0x00EF)] := by decide

/-- WriteDigitIsWriteBinaryOfItsPattern: "1001111" is the pattern of 3 (V-W1). -/
theorem witness_pattern_string : 3 ≤ 3 ∧ parseBinary [0x31, 0x30, 0x30, 0x31, 0x31, 0x31, 0x31] = .value (seg 3) := by decide

/-- SplitGivesTheFourDecimalDigits and WriteNumberClearsThenWritesItsDigits: -1, 0, 9999 and 10000; nine answers for 9999. -/
theorem witness_numbers : (-1 : Int) < 0 ∧ (9999 : Int) < 10000 ∧ (0 : Nat) ≤ 9999 ∧ (9999 : Nat) ≤ 9999 ∧
    (numberRequests 9999 (by decide)).length = 9 ∧ (oks 9).length = 9 ∧ allOk (oks 9) = true ∧
    (busyWith (oks 9)).answers = oks 9 ++ [] := by decide

/-- WriteNumberCommandsTheWholePanel: 1002 answered in full. -/
theorem witness_whole_panel : 1002 ≤ 9999 ∧ (busyWith (oks 9)).phase = .busy ∧
    ∃ t, exec (.writeNumber 1002) (busyWith (oks 9)) = .next t ∧ t.phase = .idle ∧ t.result = some ⟨.ok, none⟩ ∧
      t.view.ram.toList = [some 0x0006, some 0x0C3F, some 0x0000, some 0x0C3F, some 0x00DB] :=
  ⟨by decide, rfl, _, rfl, rfl, rfl, by decide⟩

/-- WriteNumberCommandsTheWholePanel at its lowest number: 0 leaves every slot blank (V-N1, R85). -/
theorem witness_blank_panel : 0 ≤ 9999 ∧ (busyWith (oks 5)).phase = .busy ∧
    ∃ t, exec (.writeNumber 0) (busyWith (oks 5)) = .next t ∧ t.phase = .idle ∧ t.result = some ⟨.ok, none⟩ ∧
      t.view.ram.toList = List.replicate 5 (some 0x0000) :=
  ⟨by decide, rfl, _, rfl, rfl, rfl, by decide⟩

/-- StartCommandsDisplayOnAtFullBrightness. -/
theorem witness_start_view : ∃ t, exec .start (busyWith (oks 5)) = .next t ∧ t.phase = .idle ∧ t.result = some ⟨.ok, none⟩ :=
  ⟨_, rfl, rfl, rfl⟩

/-- ValidationErrorsChangeOnlyResultAndPhase, at each of the six codes. -/
theorem witness_validation_errors : plan (.writeBinary 4 []) = .error .errPositionRange ∧
    plan (.writeDigit 0 10) = .error .errDigitTooLarge ∧ plan (.writeNumber 10000) = .error .errNumberTooLarge ∧
    plan (.writeNumber (-1)) = .error .errNumberNegative ∧ plan (.writeBinary 0 []) = .error .errBinaryMalformed ∧
    plan (.writeBinary 0 (List.replicate 17 0x31)) = .error .errBinaryOverlong := by decide

/-- OnlyTheListedRequestsAreIssued, its first clause, at the edges of the set. -/
theorem witness_issuable : issuable (.openBus Config.construction.devAddr Config.construction.bus) = true ∧
    issuable (.writeByte 0xEF) = true ∧ issuable (.writeWord 0x08 0xFFFF) = true ∧ issuable (.writeWord 0x04 0x0002) = true :=
  ⟨by simp [issuable], by decide, by decide, by decide⟩

/-- OnlyColonAndClearWriteTheColonSlot: COLON, CLEAR and WRITE_NUMBER each write it. -/
theorem witness_colon_slot : plan (.colon true) = .ok [.writeWord 0x04 0x0002] ∧ plan .clear = .ok clearRequests ∧
    Request.writeWord 0x04 0x0000 ∈ clearRequests ∧ plan (.writeNumber 0) = .ok clearRequests := by decide

/-- OscillatorEnableIsFollowedByTheDummyRead; ConstructionGivesAddressAndBus, its last clause. -/
theorem witness_oscillator : plan .start = .ok ([.openBus Config.construction.devAddr Config.construction.bus] ++ .writeByte 0x21 ::
    [.readByte, .writeByte 0x81, .writeByte 0xEF]) := rfl

/-- EarlierCommandsHaveNoEffect: two states that differ in result and log. -/
theorem witness_earlier : ∃ s₁ s₂ t₁ t₂ : State, s₁.answers = s₂.answers ∧ s₁.phase = .busy ∧ s₂.phase = .busy ∧
    s₁.result ≠ s₂.result ∧ s₁.log ≠ s₂.log ∧ exec .clear s₁ = .next t₁ ∧ exec .clear s₂ = .next t₂ :=
  ⟨busyWith (oks 5), { busyWith (oks 5) with result := some ⟨.errTransport, some 1⟩, log := [⟨.readByte, .fail 1⟩] }, _, _, rfl, rfl, rfl,
    by decide, by decide, rfl, rfl⟩

/-- WriteNumberClearsThenWritesItsDigits, its failing clause: the list of 7 cut at its last request, with the answers before it. -/
theorem witness_number_failure : numberRequests 7 (by decide) = clearRequests ++ .writeWord 0x08 0x0007 :: [] ∧
    (oks 5).length = clearRequests.length ∧ allOk (oks 5) = true ∧
    (busyWith (oks 5 ++ [.fail 1])).answers = oks 5 ++ .fail 1 :: [] := by decide

/-- PositionsSkipTheColonSlot, its plan clause, and CommandLengthIsToldByTheWord, its third. -/
theorem witness_position_plans : plan (.writeDigit 3 5) = .ok [.writeWord 0x08 0x00ED] ∧
    plan (.writeBinary 2 [0x31]) = .ok [.writeWord 0x06 0x0001] ∧ decode 0x0000000001000206 [0x31] = .ok (.writeBinary 2 [0x31]) := by
  decide

/-- PositionsSkipTheColonSlot at its last position; ConstructionGivesAddressAndBus with and without overrides. -/
theorem witness_positions_and_construction : 3 ≤ 3 ∧ physicalRegister 3 = physicalRegister 3 ∧
    (⟨some 0x71, some 1, 0, .lowByteFirst⟩ : Config.Construction).devAddrOverride = some 0x71 ∧
    (⟨none, none, 2, .lowByteFirst⟩ : Config.Construction).busOverride = none := by decide

/-- The running SET_DISPLAY meets the invariant, and so does reset (EveryStepKeepsTheInvariant, PortsKeepTheInvariant,
RunningCommandsStayInBounds). -/
theorem witness_invariant : waitingDisplay.Inv ∧ waitingDisplay.phase = .busy ∧ step waitingDisplay = .next waitingDisplay :=
  ⟨{ result_wf := fun _ h => by cases h
     log_issued := fun _ h => by cases h
     log_typed := fun _ h => by cases h
     busy_runs := fun _ => ⟨.setDisplay true, [], [], by decide, rfl, by decide, rfl, rfl, fun _ h => by cases h⟩ }, rfl, rfl⟩

end Sys2Proof.Tests
end

section
/-! Proofs for 00_scope.md: the device address and the bus of a construction (R7, R8), and the OPEN request that carries them (R35). -/

namespace Sys2Proof.Config

/-! A construction's parameters: the override, else the default. -/

theorem Construction.devAddr_of_override {c : Construction} {a : Byte} (h : c.devAddrOverride = some a) : c.devAddr = a := by
  rw [devAddr, h, Option.getD_some]

theorem Construction.devAddr_of_no_override {c : Construction} (h : c.devAddrOverride = none) : c.devAddr = 0x70 := by
  rw [devAddr, h, Option.getD_none]

theorem Construction.bus_of_override {c : Construction} {n : Nat} (h : c.busOverride = some n) : c.bus = n := by
  rw [bus, h, Option.getD_some]

theorem Construction.bus_of_no_override {c : Construction} (h : c.busOverride = none) : c.bus = c.transportDefaultBus := by
  rw [bus, h, Option.getD_none]

end Sys2Proof.Config

namespace Sys2Proof.Machine

/-! Where an OPEN request can stand. -/

@[simp] theorem openBus_mem_startRequests {c : Config.Construction} {a : Byte} {n : Nat} :
    .openBus a n ∈ startRequests c ↔ a = c.devAddr ∧ n = c.bus := by
  simp [startRequests]

@[simp] theorem openBus_notMem_clearRequests (a : Byte) (n : Nat) : .openBus a n ∉ clearRequests := by
  simp [clearRequests_eq]

/-- Of the commands a request can come from, only START's list holds an OPEN: the others write, and CLEAR's five are word writes too. -/
theorem openBus_mem_plan {i : Instr} {reqs : List Request} {a : Byte} {n : Nat} (h : plan i = .ok reqs)
    (hmem : .openBus a n ∈ reqs) :
    i = .start ∧ a = Config.construction.devAddr ∧ n = Config.construction.bus := by
  rcases mem_plan h hmem with ⟨hi, hs⟩ | ⟨_, _, hr⟩ | ⟨_, _, hr⟩ | ⟨_, _, hr⟩ | ⟨_, hc⟩ | ⟨_, _, _, hr⟩
  · exact ⟨hi, openBus_mem_startRequests.mp hs⟩
  · cases hr
  · cases hr
  · cases hr
  · exact absurd hc (openBus_notMem_clearRequests a n)
  · cases hr

/-- Settles O46: the first clause is the four readings of a construction, the second START's list as written, and the third the case
split of a request over the commands it can come from. -/
theorem constructionGivesAddressAndBus : Obligations.ConstructionGivesAddressAndBus := by
  unfold Obligations.ConstructionGivesAddressAndBus
  refine ⟨fun c => ⟨?_, ?_, ?_, ?_⟩, ⟨_, rfl⟩, ?_⟩
  · exact fun _ => Config.Construction.devAddr_of_override
  · exact Config.Construction.devAddr_of_no_override
  · exact fun _ => Config.Construction.bus_of_override
  · exact Config.Construction.bus_of_no_override
  · exact fun _ _ _ _ => openBus_mem_plan

end Sys2Proof.Machine
end

section
/-! Proofs for 10_state.md: the machine's invariant (R13 to R18), one command at a time (R15, R28 to R30), the sequencer's loop (R27), LOG
(R32) and the commanded view (R31). -/

namespace Sys2Proof.Machine

/-! Each of a step's cases as an equation (10_state.md R15, R28, R103). -/

theorem step_of_busy {s : State} (hr : s.resetLine = false) (hb : s.phase = .busy) : step s = .next (resume s) := by
  simp [step, hr, hb]

theorem step_of_presented {s : State} {c : Command} {rest : List Command} (hr : s.resetLine = false) (hi : s.phase = .idle)
    (hc : s.commandPort = c :: rest) : step s = execCommand c (s.accept c rest) := by
  simp [step, hr, hi, hc]

theorem execCommand_of_ok {c : Command} {i : Instr} (h : decode c.word c.payload = .ok i) (s : State) :
    execCommand c s = exec i s := by
  simp [execCommand, h]

theorem execCommand_of_error {c : Command} {e : DecodeError} (h : decode c.word c.payload = .error e) (s : State) :
    execCommand c s = .next (s.endCommand .errIllegalCommand none) := by
  simp [execCommand, h, raise]

/-- Every command answers a next state. -/
theorem exists_exec_eq_next (i : Instr) (s : State) : ∃ t, exec i s = .next t := by
  rcases hp : plan i with code | reqs
  · exact ⟨_, exec_of_plan_error hp s⟩
  · exact ⟨_, exec_of_plan_ok hp s⟩

/-- Settles O8: acceptance, then the two answers of decoding and the two of validation. -/
theorem stepAcceptsDecodesAndExecutes : Obligations.StepAcceptsDecodesAndExecutes := by
  unfold Obligations.StepAcceptsDecodesAndExecutes
  intro s c rest hr hi hc
  rw [step_of_presented hr hi hc]
  refine ⟨fun i hd => ?_, fun e he => execCommand_of_error he _⟩
  rw [execCommand_of_ok hd]
  exact ⟨rfl, fun code hp => exec_of_plan_error hp _, fun reqs hp => exec_of_plan_ok hp _⟩

/-- A state that is its own successor stays, however long the machine runs. -/
theorem coreRun_of_fixed (M : Host.Core) {s : M.State} (h : M.step s = .next s) : ∀ n, M.run n s = .next s
  | 0 => rfl
  | n + 1 => by rw [Host.Core.run, h]; exact coreRun_of_fixed M h n

/-- Settles O12: such a step goes on with SEQ[K], which waits, so the state is its own successor. -/
theorem unansweredRequestHangsTheCommand : Obligations.UnansweredRequestHangsTheCommand := by
  unfold Obligations.UnansweredRequestHangsTheCommand
  intro s n hr hb hk ha
  refine coreRun_of_fixed core ((step_of_busy hr hb).trans (congrArg _ ?_)) n
  rw [resume, List.drop_eq_getElem_cons hk, drain_cons_waiting _ _ s ha]

/-! A run of a list, in each of the three ways it can go (10_state.md R27). -/

theorem run_of_all_ok {reqs : List Request} {s : State} {as rest : List Answer} (hl : as.length = reqs.length)
    (hok : allOk as = true) (ha : s.answers = as ++ rest) :
    run reqs s = { s with seq := reqs, k := reqs.length, answers := rest, log := s.log ++ logOf reqs as,
                          phase := .idle, result := some ⟨.ok, none⟩ } := by
  have h := drain_append_oks reqs [] (s.loadSeq reqs) as rest hl hok ha
  rw [List.append_nil, drain_nil] at h
  rw [run, h]
  simp [State.afterOks, State.loadSeq, State.endCommand]

theorem run_of_fail {before later : List Request} {r : Request} {s : State} {as rest : List Answer} {e : FailValue}
    (hl : as.length = before.length) (hok : allOk as = true) (ha : s.answers = as ++ .fail e :: rest) :
    run (before ++ r :: later) s =
      { s with seq := before ++ r :: later, k := before.length, answers := rest,
               log := s.log ++ logOf before as ++ [⟨r, .fail e⟩], phase := .idle, result := some ⟨.errTransport, some e⟩ } := by
  have h := drain_append_oks before (r :: later) (s.loadSeq (before ++ r :: later)) as (.fail e :: rest) hl hok ha
  rw [drain_cons_fail r later _ e rest rfl] at h
  rw [run, h]
  simp [State.afterOks, State.loadSeq, State.record, State.endCommand]

theorem run_of_unanswered {before later : List Request} {r : Request} {s : State} (hl : s.answers.length = before.length)
    (hok : allOk s.answers = true) :
    run (before ++ r :: later) s =
      { s with seq := before ++ r :: later, k := before.length, answers := [], log := s.log ++ logOf before s.answers } := by
  have h := drain_append_oks before (r :: later) (s.loadSeq (before ++ r :: later)) s.answers [] hl hok (by simp)
  rw [drain_cons_waiting r later _ rfl] at h
  rw [run, h]
  simp [State.afterOks, State.loadSeq]

/-- The three ways a list of answers can meet a list of requests: one `Ok` for each, a failure first, or too few. -/
theorem answers_meet_requests (reqs : List Request) (answers : List Answer) :
    (∃ as rest, answers = as ++ rest ∧ as.length = reqs.length ∧ allOk as = true) ∨
    (∃ before r later as e rest, reqs = before ++ r :: later ∧ answers = as ++ .fail e :: rest ∧
      as.length = before.length ∧ allOk as = true) ∨
    (∃ before r later, reqs = before ++ r :: later ∧ answers.length = before.length ∧ allOk answers = true) := by
  rcases drain_cases reqs { State.reset with answers := answers } with ⟨as, rest, h1, h2, h3, -⟩ |
    ⟨before, r, later, as, e, rest, h0, h1, h2, h3, -⟩ | ⟨before, r, later, h0, h1, h2, -⟩
  · exact .inl ⟨as, rest, h1, h2, h3⟩
  · exact .inr (.inl ⟨before, r, later, as, e, rest, h0, h1, h2, h3⟩)
  · exact .inr (.inr ⟨before, r, later, h0, h1, h2⟩)

/-- Settles O16: the three ways a run can go. -/
theorem runIssuesEveryRequestInOrder : Obligations.RunIssuesEveryRequestInOrder := by
  unfold Obligations.RunIssuesEveryRequestInOrder
  exact ⟨fun _ _ _ _ => run_of_all_ok, fun _ _ _ _ _ _ _ => run_of_fail, fun _ _ _ _ => run_of_unanswered⟩

/-- Settles O17: a command with a planned list is the run of that list. -/
theorem commandsWaitAtTheUnansweredRequest : Obligations.CommandsWaitAtTheUnansweredRequest := by
  unfold Obligations.CommandsWaitAtTheUnansweredRequest
  intro i before later r s hp hl hok
  rw [exec_of_plan_ok hp, run_of_unanswered hl hok]

/-- A run left waiting goes on, given more answers, as if it had had them from the start. -/
theorem resume_after_waiting {before later : List Request} {r : Request} {s : State} {as : List Answer}
    (hl : as.length = before.length) (hok : allOk as = true) (bs : List Answer) :
    resume { s with seq := before ++ r :: later, k := before.length, answers := bs, log := s.log ++ logOf before as } =
      run (before ++ r :: later) { s with answers := as ++ bs } := by
  rw [run, drain_append_oks before (r :: later) _ as bs hl hok rfl, resume, List.drop_left]
  simp [State.afterOks, State.loadSeq]

/-- Settles O19, by the three ways the command's list can meet the first answers. -/
theorem answersInPartsEndInTheSameState : Obligations.AnswersInPartsEndInTheSameState := by
  unfold Obligations.AnswersInPartsEndInTheSameState
  intro i s t as bs hr hb he
  rcases exec_cases he with ⟨code, hp, rfl⟩ | ⟨reqs, hp, rfl⟩
  · exact ⟨nofun, fun _ => exec_of_plan_error hp _⟩
  · rw [exec_of_plan_ok hp]
    rcases answers_meet_requests reqs as with ⟨as, rest, rfl, hl, hok⟩ |
      ⟨before, r, later, as, e, rest, rfl, rfl, hl, hok⟩ | ⟨before, r, later, rfl, hl, hok⟩
    · rw [run_of_all_ok hl hok rfl, run_of_all_ok hl hok (List.append_assoc as rest bs)]
      exact ⟨nofun, fun _ => rfl⟩
    · rw [run_of_fail hl hok rfl, run_of_fail hl hok (List.append_assoc as (.fail e :: rest) bs)]
      exact ⟨nofun, fun _ => rfl⟩
    · rw [run_of_unanswered (s := { s with answers := as }) hl hok]
      refine ⟨fun _ => ?_, fun h => absurd (hb.symm.trans h) (by decide)⟩
      refine (step_of_busy ?_ ?_).trans (congrArg _ (resume_after_waiting (s := s) hl hok bs))
      · exact hr
      · exact hb

/-- Settles O43: what a run writes beside SEQ and K is made of the list and the answers alone. -/
theorem earlierCommandsHaveNoEffect : Obligations.EarlierCommandsHaveNoEffect := by
  unfold Obligations.EarlierCommandsHaveNoEffect
  intro i s₁ s₂ t₁ t₂ ha hb₁ hb₂ he₁ he₂
  rcases hp : plan i with code | reqs
  · rw [exec_of_plan_error hp, Host.Outcome.next.injEq] at he₁ he₂
    subst he₁ he₂
    exact ⟨rfl, ha, fun _ => rfl, [], by simp, by simp⟩
  · rw [exec_of_plan_ok hp, Host.Outcome.next.injEq] at he₁ he₂
    subst he₁ he₂
    rcases answers_meet_requests reqs s₁.answers with ⟨as, rest, h₁, hl, hok⟩ |
      ⟨before, r, later, as, e, rest, rfl, h₁, hl, hok⟩ | ⟨before, r, later, rfl, hl, hok⟩
    · rw [run_of_all_ok hl hok h₁, run_of_all_ok hl hok (ha ▸ h₁)]
      exact ⟨rfl, rfl, fun _ => rfl, logOf reqs as, rfl, rfl⟩
    · rw [run_of_fail hl hok h₁, run_of_fail hl hok (ha ▸ h₁)]
      exact ⟨rfl, rfl, fun _ => rfl, logOf before as ++ [⟨r, .fail e⟩], by simp, by simp⟩
    · rw [run_of_unanswered hl hok, run_of_unanswered (ha ▸ hl) (ha ▸ hok), ← ha]
      exact ⟨hb₁.trans hb₂.symm, rfl, fun h => absurd (hb₁.symm.trans h) (by decide), logOf before s₁.answers, rfl, rfl⟩

/-! The frame of a command and of a step. -/

/-- What becomes of a command: it goes on, with RESULT and the phase as they were, or it ends in IDLE with a well-formed result (R29). -/
def State.GoesOnOrEnds (s t : State) : Prop :=
  (t.phase = s.phase ∧ t.result = s.result ∧ t.answers = []) ∨ (t.phase = .idle ∧ ∃ c, t.result = some c ∧ c.wellFormed = true)

/-- In BUSY the end is told by the phase, and it writes a result. -/
theorem State.GoesOnOrEnds.of_busy {s t : State} (h : s.GoesOnOrEnds t) (hb : s.phase = .busy) :
    (t.phase = .busy ∧ t.result = s.result) ∨ (t.phase = .idle ∧ t.result ≠ none) := by
  rcases h with ⟨hp, hr, -⟩ | ⟨hp, c, hr, -⟩
  · exact .inl ⟨hp.trans hb, hr⟩
  · exact .inr ⟨hp, by simp [hr]⟩

theorem plan_error_ne_errTransport {i : Instr} {code : ResultCode} (h : plan i = .error code) : code ≠ .errTransport := by
  rintro rfl
  cases plan_error_code h

/-- A completion without a failure value is well formed unless it is the transport's (R18). -/
theorem Completion.wellFormed_none {code : ResultCode} (h : code ≠ .errTransport) : (Completion.mk code none).wellFormed = true := by
  simpa [Completion.wellFormed] using h

/-- Settles O37: an error writes RESULT and the phase only, and a run has the frame of the loop. -/
theorem commandsLeaveLatchesAndPortUnchanged : Obligations.CommandsLeaveLatchesAndPortUnchanged := by
  unfold Obligations.CommandsLeaveLatchesAndPortUnchanged
  intro i s t he
  rcases exec_cases he with ⟨code, hp, rfl⟩ | ⟨reqs, hp, rfl⟩
  · exact ⟨rfl, rfl, rfl, rfl, ⟨[], by simp, by simp, by simp⟩,
      .inr ⟨rfl, _, rfl, Completion.wellFormed_none (plan_error_ne_errTransport hp)⟩, .inl ⟨rfl, rfl⟩⟩
  · obtain ⟨hcw, hpl, hport, hline, hseq, ⟨new, hlog, hans, hle, hlen, -, hk⟩, hend⟩ := drain_frame reqs (s.loadSeq reqs)
    have hcount : (new.filter fun x => !x.failed).length ≤ new.length := List.length_filter_le _ new
    have hseq' : (run reqs s).seq = reqs := hseq
    refine ⟨hcw, hpl, hport, hline, ⟨new, hlog, hans, hle⟩, hend, .inr ⟨hseq'.symm ▸ hp, ?_⟩⟩
    rw [hseq', run, hk, State.loadSeq_k]
    omega

/-- An accepted command, whatever it is, leaves the latches and the port, and goes on or ends. -/
theorem execCommand_frame (c : Command) (s : State) :
    ∃ t, execCommand c s = .next t ∧ t.commandPort = s.commandPort ∧ t.cw = s.cw ∧ t.payload = s.payload ∧ s.GoesOnOrEnds t := by
  rcases hd : decode c.word c.payload with e | i
  · exact ⟨_, execCommand_of_error hd s, rfl, rfl, rfl, .inr ⟨rfl, _, rfl, rfl⟩⟩
  · obtain ⟨t, ht⟩ := exists_exec_eq_next i s
    obtain ⟨hcw, hpl, hport, -, -, hend, -⟩ := commandsLeaveLatchesAndPortUnchanged i s t ht
    exact ⟨t, (execCommand_of_ok hd s).trans ht, hport, hcw, hpl, hend⟩

/-- Settles O10: the loop's frame from BUSY, and an accepted command's frame from IDLE. -/
theorem busyHoldsPresentedCommands : Obligations.BusyHoldsPresentedCommands := by
  unfold Obligations.BusyHoldsPresentedCommands
  refine ⟨fun s hr hb => ?_, fun s c rest hr hi hc => ?_⟩
  · obtain ⟨hcw, hpl, hport, -, -, -, hend⟩ := drain_frame (s.seq.drop s.k) s
    exact ⟨_, step_of_busy hr hb, hport, hcw, hpl, State.GoesOnOrEnds.of_busy hend hb⟩
  · obtain ⟨t, ht, hport, hcw, hpl, hend⟩ := execCommand_frame c (s.accept c rest)
    exact ⟨t, (step_of_presented hr hi hc).trans ht, hport, hcw, hpl, hend.of_busy rfl⟩

/-- Settles O51: the loop's frame says how far K advances. -/
theorem sequencerOnlyAdvances : Obligations.SequencerOnlyAdvances := by
  unfold Obligations.SequencerOnlyAdvances
  intro s t hr hb h
  obtain rfl : resume s = t := Host.Outcome.next.inj ((step_of_busy hr hb).symm.trans h)
  obtain ⟨-, -, -, -, hseq, ⟨new, hlog, -, -, -, -, hk⟩, -⟩ := drain_frame (s.seq.drop s.k) s
  exact ⟨hseq, hk ▸ Nat.le_add_right _ _, new, hlog, hk⟩

/-- LOG grows from `s` to `t` by entries that take the answers from the front, each response made of its own answer (R32, R46). -/
def State.GrowsInAnswerOrder (s t : State) : Prop :=
  ∃ new : List LogEntry, t.log = s.log ++ new ∧ s.answers.length = new.length + t.answers.length ∧
    t.answers = s.answers.drop new.length ∧ new.map LogEntry.response = (new.zip s.answers).map fun p => respond p.1.request p.2

/-- Nothing issued, nothing answered. -/
theorem State.GrowsInAnswerOrder.of_eq {s t : State} (hlog : t.log = s.log) (ha : t.answers = s.answers) : s.GrowsInAnswerOrder t :=
  ⟨[], by simp [hlog], by simp [ha], by simp [ha], rfl⟩

/-- A log made of the first answers has the responses that these answers make, whatever answers come after them. -/
theorem responses_of_eq_logOf {new : List LogEntry} {reqs : List Request} {as : List Answer}
    (h : new = logOf reqs (as.take new.length)) (hle : new.length ≤ as.length) :
    new.map LogEntry.response = (new.zip as).map fun p => respond p.1.request p.2 := by
  have hr := logOf_responses reqs (as.take new.length)
  have hz := List.zip_append (l₁ := new) (r₁ := []) (l₂ := as.take new.length) (r₂ := as.drop new.length) (by simp [hle])
  rw [List.append_nil, List.take_append_drop, List.zip_nil_left, List.append_nil] at hz
  rwa [← h, ← hz] at hr

theorem drain_growsInAnswerOrder (reqs : List Request) (s : State) : s.GrowsInAnswerOrder (drain reqs s) := by
  obtain ⟨-, -, -, -, -, ⟨new, hlog, hans, hle, -, hnew, -⟩, -⟩ := drain_frame reqs s
  refine ⟨new, hlog, ?_, hans, responses_of_eq_logOf hnew hle⟩
  rw [hans, List.length_drop]
  omega

theorem exec_growsInAnswerOrder {i : Instr} {s t : State} (h : exec i s = .next t) : s.GrowsInAnswerOrder t := by
  rcases exec_cases h with ⟨code, -, rfl⟩ | ⟨reqs, -, rfl⟩
  · exact .of_eq rfl rfl
  · exact drain_growsInAnswerOrder reqs (s.loadSeq reqs)

/-- Settles O20: only the loop issues requests; waiting, acceptance and an error touch neither LOG nor the answers. -/
theorem logOnlyGrowsInAnswerOrder : Obligations.LogOnlyGrowsInAnswerOrder := by
  unfold Obligations.LogOnlyGrowsInAnswerOrder
  intro s t hr h
  rcases step_cases h with ⟨hr', -⟩ | ⟨-, -, rfl⟩ | ⟨-, -, -, rfl⟩ | ⟨-, -, c, rest, -, ⟨e, -, rfl⟩ | ⟨i, -, he⟩⟩
  · exact absurd (hr.symm.trans hr') (by decide)
  · exact drain_growsInAnswerOrder (s.seq.drop s.k) s
  · exact State.GrowsInAnswerOrder.of_eq rfl rfl
  · exact State.GrowsInAnswerOrder.of_eq rfl rfl
  · exact exec_growsInAnswerOrder (s := s.accept c rest) he

/-! What a planned list can hold: requests of R50, at most nine of them. -/

theorem issuable_of_mem_startRequests {r : Request} (h : r ∈ startRequests Config.construction) : issuable r = true := by
  simp only [startRequests, List.mem_cons, List.not_mem_nil, or_false] at h
  rcases h with rfl | rfl | rfl | rfl | rfl
  · simp [issuable]
  all_goals decide

theorem issuable_physicalRegister {p : Nat} (hp : p ≤ 3) (w : Word16) :
    issuable (.writeWord (physicalRegister p) w) = true := by
  obtain ⟨h0, h1, h2, h3⟩ := physicalRegister_values
  interval_cases p <;> simp [issuable, h0, h1, h2, h3]

theorem issuable_of_mem_plan {i : Instr} {reqs : List Request} (h : plan i = .ok reqs) {r : Request} (hr : r ∈ reqs) :
    issuable r = true := by
  rcases mem_plan h hr with ⟨-, hs⟩ | ⟨on, -, rfl⟩ | ⟨level, -, rfl⟩ | ⟨on, -, rfl⟩ | ⟨-, hc⟩ | ⟨p, w, hp, rfl⟩
  · exact issuable_of_mem_startRequests hs
  · cases on <;> decide
  · simp [issuable, issuableByte, brightnessByte_range level]
  · cases on <;> decide
  · have all : ∀ r ∈ clearRequests, issuable r = true := by decide
    exact all r hc
  · exact issuable_physicalRegister hp w

theorem scanDigits_length_le (ds : List (Fin 10)) : ∀ (pos : Nat) (seen : Bool), (scanDigits pos seen ds).length ≤ ds.length := by
  induction ds with
  | nil => simp [scanDigits]
  | cons d ds ih =>
    intro pos seen
    unfold scanDigits
    split
    · simpa using ih (pos + 1) true
    · exact (ih (pos + 1) false).trans (by simp)

theorem numberRequests_length_le (n : Nat) (h : n ≤ 9999) : (numberRequests n h).length ≤ 9 := by
  have hs : (scanDigits 0 false (split n h)).length ≤ 4 := scanDigits_length_le (split n h) 0 false
  simp [numberRequests, clearRequests]
  omega

/-- No command issues more than nine requests (10_state.md R17). -/
theorem plan_length_le_nine {i : Instr} {reqs : List Request} (h : plan i = .ok reqs) : reqs.length ≤ 9 := by
  cases i with
  | start | setDisplay | setBrightness | colon | clear => cases h; simp [startRequests, clearRequests]
  | writeBinary pos chars =>
    simp only [plan, planWriteBinary] at h
    split at h
    · cases h
    · split at h <;> cases h
      simp
  | writeDigit pos digit =>
    simp only [plan, planWriteDigit] at h
    split at h
    · cases h
    · split at h <;> cases h
      simp
  | writeNumber n =>
    simp only [plan, planWriteNumber] at h
    split at h
    · cases h
    · split at h <;> cases h
      exact numberRequests_length_le _ _

/-! The invariant's two halves: what holds of RESULT and LOG in either phase, and how far a command has come. -/

/-- The part of the invariant that does not look at the phase. -/
structure State.Sound (s : State) : Prop where
  result_wf  : ∀ c, s.result = some c → c.wellFormed = true
  log_issued : ∀ x ∈ s.log, issuable x.request = true
  log_typed  : ∀ x ∈ s.log, x.wellTyped = true

theorem State.Inv.sound {s : State} (h : s.Inv) : s.Sound := ⟨h.result_wf, h.log_issued, h.log_typed⟩

theorem State.Sound.inv {s : State} (h : s.Sound) (hb : s.phase = .busy → s.Running) : s.Inv :=
  ⟨h.result_wf, h.log_issued, h.log_typed, hb⟩

theorem State.Sound.inv_of_idle {s : State} (h : s.Sound) (hi : s.phase = .idle) : s.Inv :=
  h.inv fun hb => absurd (hb.symm.trans hi) (by decide)

theorem State.Sound.accept {s : State} (h : s.Sound) (c : Command) (rest : List Command) : (s.accept c rest).Sound :=
  ⟨h.result_wf, h.log_issued, h.log_typed⟩

theorem State.Sound.loadSeq {s : State} (h : s.Sound) (reqs : List Request) : (s.loadSeq reqs).Sound :=
  ⟨h.result_wf, h.log_issued, h.log_typed⟩

theorem State.Sound.endCommand {s : State} (h : s.Sound) {code : ResultCode} {e : Option FailValue}
    (hc : (Completion.mk code e).wellFormed = true) : (s.endCommand code e).Sound where
  result_wf c hr := by obtain rfl : _ = c := Option.some.inj hr; exact hc
  log_issued := h.log_issued
  log_typed := h.log_typed

/-- An error that `raise` writes carries no failure value, so it must not be the transport's (10_state.md R18). -/
theorem State.Sound.raised {s : State} (h : s.Sound) {code : ResultCode} (hc : code ≠ .errTransport) :
    (s.endCommand code none).Inv :=
  State.Sound.inv_of_idle (h.endCommand (Completion.wellFormed_none hc)) rfl

/-- The loop over requests of R50 keeps RESULT and LOG sound. -/
theorem State.Sound.drain {s : State} (h : s.Sound) {reqs : List Request} (hreqs : ∀ r ∈ reqs, issuable r = true) :
    (drain reqs s).Sound := by
  obtain ⟨-, -, -, -, -, ⟨new, hlog, -, -, -, hnew, -⟩, hend⟩ := drain_frame reqs s
  have mem_new : ∀ x ∈ new, x.request ∈ reqs ∧ x.wellTyped = true := fun x hx => mem_logOf (hnew ▸ hx)
  refine ⟨fun c hc => ?_, fun x hx => ?_, fun x hx => ?_⟩
  · rcases hend with ⟨-, hr, -⟩ | ⟨-, c', hr, hwf⟩
    · exact h.result_wf c (hr ▸ hc)
    · obtain rfl : c' = c := Option.some.inj (hr.symm.trans hc)
      exact hwf
  · rcases List.mem_append.mp (hlog ▸ hx) with hx | hx
    · exact h.log_issued x hx
    · exact hreqs _ (mem_new x hx).1
  · rcases List.mem_append.mp (hlog ▸ hx) with hx | hx
    · exact h.log_typed x hx
    · exact (mem_new x hx).2

/-- How far a command has come, whether or not a request is left: SEQ is the latched command's list, and the last K entries of LOG are
its first K requests, none failed. A running command has one more request to issue (`running_iff`). -/
def State.UnderWay (s : State) : Prop :=
  ∃ (i : Instr) (before answered : List LogEntry),
    decode s.cw s.payload = .ok i ∧ plan i = .ok s.seq ∧ s.log = before ++ answered ∧
    answered.map LogEntry.request = s.seq.take s.k ∧ ∀ x ∈ answered, x.failed = false

theorem State.running_iff (s : State) : s.Running ↔ s.UnderWay ∧ s.k < s.seq.length := by
  constructor
  · rintro ⟨i, before, answered, hd, hp, hk, hrest⟩
    exact ⟨⟨i, before, answered, hd, hp, hrest⟩, hk⟩
  · rintro ⟨⟨i, before, answered, hd, hp, hrest⟩, hk⟩
    exact ⟨i, before, answered, hd, hp, hk, hrest⟩

theorem State.UnderWay.issuable_seq {s : State} (h : s.UnderWay) : ∀ r ∈ s.seq, issuable r = true := by
  obtain ⟨_, _, _, -, hp, -⟩ := h
  exact fun r hr => issuable_of_mem_plan hp hr

/-- A list just loaded is under way, with nothing issued yet. -/
theorem State.underWay_loadSeq {s : State} {i : Instr} {reqs : List Request} (hd : decode s.cw s.payload = .ok i)
    (hp : plan i = .ok reqs) : (s.loadSeq reqs).UnderWay :=
  ⟨i, s.log, [], hd, hp, by simp, by simp, by simp⟩

/-- Requests of SEQ answered `Ok` take the command that far on. -/
theorem State.UnderWay.afterOks {s : State} (h : s.UnderWay) {done later : List Request} {as : List Answer}
    (hseq : s.seq.drop s.k = done ++ later) (hl : as.length = done.length) (hok : allOk as = true) (rest : List Answer) :
    (s.afterOks done as rest).UnderWay := by
  obtain ⟨i, before, answered, hd, hp, hlog, hreq, hnf⟩ := h
  refine ⟨i, before, answered ++ logOf done as, hd, hp, by simp [State.afterOks, hlog], ?_, fun x hx => ?_⟩
  · rw [List.map_append, hreq, logOf_requests done as hl]
    calc s.seq.take s.k ++ done = s.seq.take s.k ++ (s.seq.drop s.k).take done.length := by rw [hseq, List.take_left]
      _ = s.seq.take (s.k + done.length) := List.take_add.symm
  · rcases List.mem_append.mp hx with hx | hx
    · exact hnf x hx
    · exact logOf_none_failed done as hok x hx

/-- A command that goes on with its list ends, or is left running. -/
theorem State.UnderWay.resume {s : State} (h : s.UnderWay) : (resume s).phase = .busy → (resume s).Running := by
  intro hb
  unfold Machine.resume at hb ⊢
  rcases drain_cases (s.seq.drop s.k) s with ⟨_, _, -, -, -, ht⟩ | ⟨_, _, _, _, _, _, -, -, -, -, ht⟩ |
    ⟨done, r, later, hseq, hl, hok, ht⟩
  · rw [ht] at hb; cases hb
  · rw [ht] at hb; cases hb
  · rw [ht]
    refine (State.running_iff _).mpr ⟨h.afterOks hseq hl hok [], ?_⟩
    have hlen := congrArg List.length hseq
    simp only [List.length_drop, List.length_append, List.length_cons] at hlen
    simp only [State.afterOks]
    omega

/-- To run a list is to load it and go on from its first request. -/
theorem run_eq_resume (reqs : List Request) (s : State) : run reqs s = resume (s.loadSeq reqs) := rfl

theorem State.Sound.resume_inv {s : State} (h : s.Sound) (hu : s.UnderWay) : (resume s).Inv :=
  State.Sound.inv (h.drain fun r hr => hu.issuable_seq r (List.mem_of_mem_drop hr)) hu.resume

/-- A command whose latches it was decoded from, executed, leaves the invariant. -/
theorem State.Sound.exec_inv {s t : State} {i : Instr} (h : s.Sound) (hd : decode s.cw s.payload = .ok i)
    (he : exec i s = .next t) : t.Inv := by
  rcases exec_cases he with ⟨code, hp, rfl⟩ | ⟨reqs, hp, rfl⟩
  · exact h.raised (plan_error_ne_errTransport hp)
  · rw [run_eq_resume]
    exact (h.loadSeq reqs).resume_inv (State.underWay_loadSeq hd hp)

theorem State.applyReset_inv (s : State) : s.applyReset.Inv :=
  State.Sound.inv_of_idle ⟨fun _ h => by simp at h, by simp, by simp⟩ rfl

/-- Settles O48: of the five things a step can do, reset and waiting are immediate, an error is raised at once, and both the start and
the going on of a command run its own list. -/
theorem everyStepKeepsTheInvariant : Obligations.EveryStepKeepsTheInvariant := by
  unfold Obligations.EveryStepKeepsTheInvariant
  intro s t hs h
  rcases step_cases h with ⟨-, rfl⟩ | ⟨-, hb, rfl⟩ | ⟨-, -, -, rfl⟩ | ⟨-, -, c, rest, -, ⟨e, -, rfl⟩ | ⟨i, hd, he⟩⟩
  · exact s.applyReset_inv
  · exact hs.sound.resume_inv ((State.running_iff s).mp (hs.busy_runs hb)).1
  · exact hs
  · exact (hs.sound.accept c rest).raised (by decide)
  · exact (hs.sound.accept c rest).exec_inv hd he

/-- Settles O49: none of the three writes a field that the invariant speaks of. -/
theorem portsKeepTheInvariant : Obligations.PortsKeepTheInvariant := by
  unfold Obligations.PortsKeepTheInvariant
  intro s c a ⟨hwf, hissued, htyped, hruns⟩
  exact ⟨⟨hwf, hissued, htyped, hruns⟩, ⟨hwf, hissued, htyped, hruns⟩, ⟨hwf, hissued, htyped, hruns⟩⟩

/-- A payload that decodes with its word fits the field L (30_encoding.md R61, R64). -/
theorem payload_length_le_of_decode {cw : CommandWord} {s : List Byte} {i : Instr} (h : decode cw s = .ok i) : s.length ≤ 255 := by
  obtain ⟨m, -, hl, -⟩ := (decode_eq_ok_iff cw s i).mp h
  have hL : (fieldL cw).toNat < 256 := (fieldL cw).isLt
  cases m <;> simp only [Mnemonic.payloadLength] at hl <;> omega

/-- Settles O50: K points into a planned list, which has at most nine requests, and the latched payload decodes. -/
theorem runningCommandsStayInBounds : Obligations.RunningCommandsStayInBounds := by
  unfold Obligations.RunningCommandsStayInBounds
  intro s hs hb
  obtain ⟨i, -, -, hd, hp, hk, -⟩ := hs.busy_runs hb
  have hlen := plan_length_le_nine hp
  exact ⟨by omega, hlen, payload_length_le_of_decode hd⟩

/-! The commanded view (10_state.md R31). -/

/-- The four high bits of a byte choose the brightness register, which shares its bytes with no other. -/
theorem brightness_byte_fields (b : BitVec 4) : (0xE#4 ++ b : Byte) ≠ 0x21 ∧ (0xE#4 ++ b : Byte) ≠ 0x80 ∧
    (0xE#4 ++ b : Byte) ≠ 0x81 ∧ (0xE#4 ++ b : Byte).extractLsb' 4 4 = 0xE ∧ (0xE#4 ++ b : Byte).extractLsb' 0 4 = b := by
  revert b; decide

theorem viewByteOk_brightness (b : BitVec 4) (v : CommandedView) : viewByteOk (0xE#4 ++ b) v = { v with dim := some b } := by
  obtain ⟨h21, h80, h81, hhigh, hlow⟩ := brightness_byte_fields b
  rw [viewByteOk, if_neg h21, if_neg h80, if_neg h81, if_pos hhigh, hlow]

theorem viewByteFail_brightness (b : BitVec 4) (v : CommandedView) : viewByteFail (0xE#4 ++ b) v = { v with dim := none } := by
  obtain ⟨h21, h80, h81, hhigh, -⟩ := brightness_byte_fields b
  rw [viewByteFail, if_neg h21, if_neg h80, if_neg h81, if_pos hhigh]

theorem viewWord_slot {n : Nat} (h : n < 5) (w : Option Word16) (v : CommandedView) :
    viewWord (BitVec.ofNat 8 (2 * n)) w v = { v with ram := v.ram.set n w } := by
  have ho : (BitVec.ofNat 8 (2 * n)).toNat / 2 = n := by
    rw [BitVec.toNat_ofNat]
    omega
  rw [viewWord, ho]
  congr 1
  ext i hi
  simp [Vector.getElem_set, Vector.getElem_setIfInBounds]

/-! Folding an entry in twice is folding it in once (R45). -/

theorem viewByteOk_idem (b : Byte) (v : CommandedView) : viewByteOk b (viewByteOk b v) = viewByteOk b v := by
  unfold viewByteOk
  repeat' split
  all_goals rfl

theorem viewByteFail_idem (b : Byte) (v : CommandedView) : viewByteFail b (viewByteFail b v) = viewByteFail b v := by
  unfold viewByteFail
  repeat' split
  all_goals rfl

theorem viewWord_idem (o : Byte) (w : Option Word16) (v : CommandedView) : viewWord o w (viewWord o w v) = viewWord o w v := by
  simp [viewWord]

theorem viewEntry_idem (v : CommandedView) (x : LogEntry) : viewEntry (viewEntry v x) x = viewEntry v x := by
  rcases x with ⟨_ | b | _ | ⟨o, w⟩, response⟩
  · rfl
  · cases response
    · exact viewByteOk_idem b v
    · exact viewByteOk_idem b v
    · exact viewByteFail_idem b v
  · rfl
  · cases response
    · exact viewWord_idem o (some w) v
    · exact viewWord_idem o (some w) v
    · exact viewWord_idem o none v

/-- Settles O44: the fold's start and step, and what each kind of entry does to a view. -/
theorem failedWritesMakeTheirTargetUnknown : Obligations.FailedWritesMakeTheirTargetUnknown := by
  unfold Obligations.FailedWritesMakeTheirTargetUnknown
  refine ⟨rfl, fun log x => ?_, fun _ _ _ _ => ⟨rfl, rfl⟩, fun _ _ => ⟨rfl, rfl, rfl, rfl, rfl, rfl⟩, fun v e b => ?_,
    fun v e w n h => ?_, viewEntry_idem⟩
  · simp [commandedView]
  · exact ⟨viewByteFail_brightness b v, viewByteOk_brightness b v⟩
  · exact ⟨viewWord_slot h none v, viewWord_slot h (some w) v⟩

/-! What a command that ends in OK has commanded. -/

/-- The view once every request of a list is answered `Ok`. -/
def viewIssued (v : CommandedView) (reqs : List Request) : CommandedView :=
  reqs.foldl (fun v r => viewEntry v ⟨r, .ok⟩) v

/-- The view does not look at the byte read (20_memory.md R37). -/
theorem viewEntry_respond_ok (v : CommandedView) (r : Request) (b : Byte) :
    viewEntry v ⟨r, respond r (.ok b)⟩ = viewEntry v ⟨r, .ok⟩ := by
  cases r <;> rfl

theorem foldl_viewEntry_logOf (reqs : List Request) : ∀ (v : CommandedView) (as : List Answer), as.length = reqs.length →
    allOk as = true → (logOf reqs as).foldl viewEntry v = viewIssued v reqs := by
  induction reqs with
  | nil => intro v as _ _; rfl
  | cons r reqs ih =>
    intro v as hl hok
    cases as with
    | nil => simp at hl
    | cons a as =>
      cases a with
      | fail e => simp at hok
      | ok b =>
        rw [logOf_cons, List.foldl_cons, viewEntry_respond_ok, ih _ as (by simpa using hl) (by simpa using hok)]
        rfl

/-- A run that has ended in OK has had every request answered `Ok`, so its view is that of the whole list. -/
theorem view_of_exec_ok {i : Instr} {reqs : List Request} {s t : State} (hp : plan i = .ok reqs) (hb : s.phase = .busy)
    (he : exec i s = .next t) (hi : t.phase = .idle) (hres : t.result = some ⟨.ok, none⟩) :
    t.view = viewIssued s.view reqs := by
  obtain rfl : run reqs s = t := Host.Outcome.next.inj ((exec_of_plan_ok hp s).symm.trans he)
  rcases answers_meet_requests reqs s.answers with ⟨as, rest, ha, hl, hok⟩ |
    ⟨before, r, later, as, e, rest, rfl, ha, hl, hok⟩ | ⟨before, r, later, rfl, hl, hok⟩
  · rw [run_of_all_ok hl hok ha, State.view, commandedView, List.foldl_append]
    exact foldl_viewEntry_logOf reqs _ as hl hok
  · rw [run_of_fail hl hok ha] at hres
    cases hres
  · rw [run_of_unanswered hl hok] at hi
    exact absurd (hb.symm.trans hi) (by decide)

theorem viewIssued_startRequests (v : CommandedView) (c : Config.Construction) :
    viewIssued v (startRequests c) = { v with osc := .on, disp := .on, dim := some 15 } := rfl

/-- Settles O36: the view is that of START's five requests, all answered `Ok`, and each element is read off it. -/
theorem startCommandsDisplayOnAtFullBrightness : Obligations.StartCommandsDisplayOnAtFullBrightness := by
  unfold Obligations.StartCommandsDisplayOnAtFullBrightness
  intro s t hb he hi hres
  rw [view_of_exec_ok (i := .start) rfl hb he hi hres, viewIssued_startRequests]
  exact ⟨rfl, rfl, rfl, rfl⟩

/-! WRITE_NUMBER's view: five blanks, then the digits from the first significant one on (42_number.md R83, R85). -/

/-- The view with the five slots given and the other elements those of `v`. -/
def CommandedView.withSlots (v : CommandedView) (w : Vector Word16 5) : CommandedView := { v with ram := w.map some }

theorem viewIssued_append (v : CommandedView) (reqs later : List Request) :
    viewIssued v (reqs ++ later) = viewIssued (viewIssued v reqs) later := List.foldl_append

theorem setIfInBounds_all_slots {α : Type} (r : Vector α 5) (x : α) :
    ((((r.setIfInBounds 0 x).setIfInBounds 1 x).setIfInBounds 2 x).setIfInBounds 3 x).setIfInBounds 4 x = Vector.replicate 5 x := by
  ext i hi
  interval_cases i <;> simp

/-- The clear writes every slot, so nothing shown before is left (41_panel.md R75). -/
theorem viewIssued_clearRequests (v : CommandedView) : viewIssued v clearRequests = v.withSlots (Vector.replicate 5 0) := by
  rw [CommandedView.withSlots, Vector.map_replicate, ← setIfInBounds_all_slots v.ram]
  rfl

/-- The slot of a position: the colon's slot 2 is left out (20_memory.md R41). -/
def slotOf (pos : Fin 4) : Fin 5 := if pos.val < 2 then pos.castSucc else pos.succ

theorem physicalRegister_eq_slotOf (pos : Fin 4) : physicalRegister pos = BitVec.ofNat 8 (2 * slotOf pos) := by
  revert pos; decide

/-- What a digit's slot shows: the digit's pattern, or blank where it is a leading zero. -/
def shownDigit (seen : Bool) (d : Fin 10) : Word16 := if seen || d ≠ 0 then seg d else 0

theorem viewEntry_digitRequest (v : CommandedView) (w : Vector Word16 5) (pos : Fin 4) (d : Fin 10) :
    viewEntry (v.withSlots w) ⟨digitRequest pos d, .ok⟩ = v.withSlots (w.set (slotOf pos) (seg d)) := by
  rw [digitRequest, physicalRegister_eq_slotOf]
  exact (viewWord_slot (slotOf pos).isLt _ _).trans (by simp [CommandedView.withSlots])

/-- One turn of the scan: a digit is written, and a leading zero is skipped, which leaves its slot blank. -/
theorem viewIssued_scanDigits_cons (v : CommandedView) {w : Vector Word16 5} {pos : Fin 4} (hw : w[slotOf pos] = 0)
    (seen : Bool) (d : Fin 10) (ds : List (Fin 10)) :
    viewIssued (v.withSlots w) (scanDigits pos seen (d :: ds)) =
      viewIssued (v.withSlots (w.set (slotOf pos) (shownDigit seen d))) (scanDigits (pos + 1) (seen || d ≠ 0) ds) := by
  rw [scanDigits, shownDigit]
  cases h : seen || decide (d ≠ 0) with
  | true =>
    rw [if_pos rfl, if_pos rfl, viewIssued, List.foldl_cons, ← viewIssued, viewEntry_digitRequest]
  | false =>
    have hset : w.set (slotOf pos) 0 = w := by rw [← hw]; exact Vector.set_getElem_self _
    rw [if_neg Bool.false_ne_true, if_neg Bool.false_ne_true, hset]

/-- The panel after the clear and the scan of four digits. -/
theorem viewIssued_number (v : CommandedView) (a b c d : Fin 10) :
    viewIssued v (clearRequests ++ scanDigits 0 false [a, b, c, d]) =
      v.withSlots #v[shownDigit false a, shownDigit (a ≠ 0) b, 0, shownDigit (a ≠ 0 || b ≠ 0) c,
        shownDigit (a ≠ 0 || b ≠ 0 || c ≠ 0) d] := by
  rw [viewIssued_append, viewIssued_clearRequests]
  refine (viewIssued_scanDigits_cons v (pos := 0) ?_ false a _).trans <|
    (viewIssued_scanDigits_cons v (pos := 1) ?_ _ b _).trans <| (viewIssued_scanDigits_cons v (pos := 2) ?_ _ c _).trans <|
    (viewIssued_scanDigits_cons v (pos := 3) ?_ _ d []).trans ?_
  all_goals rfl

theorem plan_writeNumber {n : Nat} (h : n ≤ 9999) : plan (.writeNumber n) = .ok (numberRequests n h) := by
  simp [plan, planWriteNumber, h]

/-- A slot's digit as the statement writes it: blank exactly where the number has no digit that high. -/
theorem shownDigit_eq {n m : Nat} {d : Fin 10} {seen : Bool} (hd : d.val = n / m % 10) (hs : (seen || d ≠ 0) = true ↔ m ≤ n) :
    shownDigit seen d = if n < m then 0x0000 else
      [0x0C3F, 0x0006, 0x00DB, 0x004F, 0x00E6, 0x00ED, 0x00FD, 0x0007, 0x00FF, 0x00EF].getD (n / m % 10) 0 := by
  rw [shownDigit, seg_eq_getD, hd]
  by_cases h : m ≤ n
  · rw [if_pos (hs.mpr h), if_neg (by omega)]
  · rw [if_neg (fun hc => h (hs.mp hc)), if_pos (by omega)]

/-- Settles O35: the five slots after the scan, a digit blank exactly where all digits down to it are zero. -/
theorem writeNumberCommandsTheWholePanel : Obligations.WriteNumberCommandsTheWholePanel := by
  unfold Obligations.WriteNumberCommandsTheWholePanel
  intro n s t hn hb he hi hres shown hshown
  rw [view_of_exec_ok (plan_writeNumber hn) hb he hi hres, numberRequests, split, viewIssued_number]
  refine ⟨?_, rfl, rfl, rfl⟩
  simp only [hshown]
  rw [shownDigit_eq (n := n) (m := 1000), shownDigit_eq (n := n) (m := 100), shownDigit_eq (n := n) (m := 10),
    shownDigit_eq (n := n) (m := 1)]
  · simp [CommandedView.withSlots]
  all_goals simp [Fin.ext_iff]
  all_goals omega

end Sys2Proof.Machine
end

section
/-! Proofs for 20_memory.md: the dummy read (R37), the position mapping (R41) and the set of requests the ENCODER can issue (R50). -/

namespace Sys2Proof.Machine

/-! The position mapping, and the two commands that use it (20_memory.md R41). -/

theorem physicalRegister_toNat {p : Nat} (hp : p ≤ 3) :
    (physicalRegister p).toNat = if p < 2 then p * 2 else (p + 1) * 2 := by
  interval_cases p <;> rfl

theorem physicalRegister_ne_colonOffset {p : Nat} (hp : p ≤ 3) : physicalRegister p ≠ 0x04 := by
  interval_cases p <;> decide

theorem physicalRegister_inj {p q : Nat} (hp : p ≤ 3) (hq : q ≤ 3) (h : physicalRegister p = physicalRegister q) : p = q := by
  have hn := congrArg BitVec.toNat h
  rw [physicalRegister_toNat hp, physicalRegister_toNat hq] at hn
  split at hn <;> split at hn <;> omega

/-- WRITE_BINARY has a list exactly for a position up to 3 and a string that has a value (41_panel.md R76). -/
theorem plan_writeBinary_eq_ok_iff {p : Nat} {chars : List Byte} {reqs : List Request} :
    plan (.writeBinary p chars) = .ok reqs ↔
      p ≤ 3 ∧ ∃ w, parseBinary chars = .value w ∧ reqs = [.writeWord (physicalRegister p) w] := by
  rw [plan, planWriteBinary]
  by_cases hp : p ≤ 3
  · rw [if_neg (by omega)]
    cases parseBinary chars <;> simp [hp, eq_comm]
  · rw [if_pos (by omega)]
    simp [hp]

/-- WRITE_DIGIT has a list exactly for a position up to 3 and a decimal digit (41_panel.md R79). -/
theorem plan_writeDigit_eq_ok_iff {p digit : Nat} {reqs : List Request} :
    plan (.writeDigit p digit) = .ok reqs ↔
      p ≤ 3 ∧ ∃ h : digit < 10, reqs = [.writeWord (physicalRegister p) (seg ⟨digit, h⟩)] := by
  rw [plan, planWriteDigit]
  by_cases hp : p ≤ 3
  · rw [if_neg (by omega)]
    by_cases hd : digit < 10 <;> simp [hp, hd, digitRequest, eq_comm]
  · rw [if_pos (by omega)]
    simp [hp]

/-- Settles O42: the mapping's four values tell positions apart and leave out the colon's, and the lists of both commands are read off
their conditions. -/
theorem positionsSkipTheColonSlot : Obligations.PositionsSkipTheColonSlot := by
  unfold Obligations.PositionsSkipTheColonSlot
  refine ⟨fun p => physicalRegister_toNat, ?_, ?_, ?_⟩
  · obtain ⟨h0, h1, h2, h3⟩ := physicalRegister_values
    simp [h0, h1, h2, h3]
  · exact fun p q hp hq => ⟨physicalRegister_ne_colonOffset hp, physicalRegister_inj hp hq⟩
  · rintro p digit chars reqs (h | h)
    · obtain ⟨hp, hd, rfl⟩ := plan_writeDigit_eq_ok_iff.mp h
      exact ⟨hp, _, rfl⟩
    · obtain ⟨hp, w, -, rfl⟩ := plan_writeBinary_eq_ok_iff.mp h
      exact ⟨hp, w, rfl⟩

/-! The dummy read (20_memory.md R37). -/

/-- The state with another log. -/
def State.withLog (s : State) (l : List LogEntry) : State := { s with log := l }

@[simp] theorem State.withLog_log (s : State) (l : List LogEntry) : (s.withLog l).log = l := rfl

/-- The loop does not look at LOG: whatever it holds, the same entries are appended and the other fields end the same. -/
theorem drain_withLog (reqs : List Request) (s : State) :
    ∃ (u : State) (new : List LogEntry), ∀ l, drain reqs (s.withLog l) = u.withLog (l ++ new) := by
  induction reqs generalizing s with
  | nil => exact ⟨s.endCommand .ok none, [], fun l => by rw [List.append_nil]; rfl⟩
  | cons r rs ih =>
    rcases ha : s.answers with _ | ⟨v | e, rest⟩
    · refine ⟨s, [], fun l => ?_⟩
      rw [drain_cons_waiting r rs (s.withLog l) ha, List.append_nil]
    · obtain ⟨u, new, hnew⟩ := ih (s.record r (.ok v) rest).advance
      refine ⟨u, ⟨r, respond r (.ok v)⟩ :: new, fun l => ?_⟩
      rw [drain_cons_ok r rs (s.withLog l) v rest ha, List.append_cons]
      exact hnew (l ++ [⟨r, respond r (.ok v)⟩])
    · refine ⟨(s.record r (.fail e) rest).endCommand .errTransport (some e), [⟨r, .fail e⟩], fun l => ?_⟩
      rw [drain_cons_fail r rs (s.withLog l) e rest ha]
      rfl

/-- Where a command's list begins with requests answered `Ok`, the data of these answers goes into their log entries and nowhere else. -/
theorem exec_append_oks {i : Instr} {before later : List Request} (hp : plan i = .ok (before ++ later)) (s : State)
    (rest : List Answer) :
    ∃ (u : State) (new : List LogEntry), ∀ as : List Answer, as.length = before.length → allOk as = true →
      exec i { s with answers := as ++ rest } = .next (u.withLog (s.log ++ logOf before as ++ new)) := by
  obtain ⟨u, new, hnew⟩ := drain_withLog later ((s.loadSeq (before ++ later)).afterOks before [] rest)
  refine ⟨u, new, fun as hl hok => ?_⟩
  rw [exec_of_plan_ok hp, run, drain_append_oks before later _ as rest hl hok rfl]
  exact congrArg _ (hnew (s.log ++ logOf before as))

/-- Of the commands a request can come from, only START's list holds a read. -/
theorem readByte_mem_plan {i : Instr} {reqs : List Request} (h : plan i = .ok reqs) (hmem : .readByte ∈ reqs) : i = .start := by
  rcases mem_plan h hmem with ⟨hi, -⟩ | ⟨_, _, hr⟩ | ⟨_, _, hr⟩ | ⟨_, _, hr⟩ | ⟨_, hc⟩ | ⟨_, _, _, hr⟩
  · exact hi
  · cases hr
  · cases hr
  · cases hr
  · simp [clearRequests_eq] at hc
  · cases hr

/-- START's list, cut at the dummy read (40_control.md R67). -/
theorem plan_start : plan .start = .ok ([.openBus Config.construction.devAddr Config.construction.bus, .writeByte 0x21] ++
    .readByte :: [.writeByte 0x81, .writeByte 0xEF]) := rfl

/-- Settles O23: two runs of START differ in the entry of the byte read only, and the commanded view does not look at that byte; a failed
read is a run cut at the third request; and a read can come from START only. -/
theorem dummyReadValueIsIgnored : Obligations.DummyReadValueIsIgnored := by
  unfold Obligations.DummyReadValueIsIgnored
  refine ⟨fun s t t' x y v v' rest h h' => ?_, fun s x y e rest ha => ?_, fun i reqs hp => ?_⟩
  · obtain ⟨u, new, hexec⟩ := exec_append_oks (before := [_, _, _]) plan_start s rest
    cases h.symm.trans (hexec [.ok x, .ok y, .ok v] rfl rfl)
    cases h'.symm.trans (hexec [.ok x, .ok y, .ok v'] rfl rfl)
    refine ⟨rfl, ?_, ?_⟩
    · simp
    · simp only [State.view, commandedView, State.withLog_log, List.foldl_append]
      rw [foldl_viewEntry_logOf _ _ [.ok x, .ok y, .ok v] rfl rfl, foldl_viewEntry_logOf _ _ [.ok x, .ok y, .ok v'] rfl rfl]
  · have hexec := (exec_of_plan_ok plan_start s).trans (congrArg _ (run_of_fail (as := [.ok x, .ok y]) rfl rfl ha))
    exact ⟨_, hexec, rfl, rfl, by simp [respond]⟩
  · by_cases hi : i = .start
    · subst hi
      cases hp
      rfl
    · rw [if_neg hi, List.count_eq_zero]
      exact fun hmem => hi (readByte_mem_plan hp hmem)

/-! The set of requests the ENCODER can issue (20_memory.md R50). -/

/-- R50's set, kind by kind. -/
theorem issuable_iff (r : Request) : issuable r = true ↔
    r = .openBus Config.construction.devAddr Config.construction.bus ∨
    (∃ b : Byte, r = .writeByte b ∧ (b = 0x21 ∨ b = 0x80 ∨ b = 0x81 ∨ (0xE0 ≤ b.toNat ∧ b.toNat ≤ 0xEF))) ∨
    r = .readByte ∨
    (∃ (o : Byte) (w : Word16), r = .writeWord o w ∧ (o = 0x00 ∨ o = 0x02 ∨ o = 0x06 ∨ o = 0x08)) ∨
    r = .writeWord 0x04 0x0002 ∨ r = .writeWord 0x04 0x0000 := by
  cases r with
  | openBus a n => simp [issuable]
  | writeByte b => simp [issuable, issuableByte, or_assoc]
  | readByte => simp [issuable]
  | writeWord o w =>
    have hslots : (∃ (o' : Byte) (w' : Word16), Request.writeWord o w = .writeWord o' w' ∧
        (o' = 0x00 ∨ o' = 0x02 ∨ o' = 0x06 ∨ o' = 0x08)) ↔ o = 0x00 ∨ o = 0x02 ∨ o = 0x06 ∨ o = 0x08 :=
      ⟨by rintro ⟨_, _, ⟨⟩, ho⟩; exact ho, fun ho => ⟨o, w, rfl, ho⟩⟩
    rw [hslots]
    simp [issuable, or_assoc, and_or_left]

/-- Every byte of the brightness register's nibble is that of some level. -/
theorem exists_brightnessByte {b : Byte} (hlo : 0xE0 ≤ b.toNat) (hhi : b.toNat ≤ 0xEF) :
    ∃ level < 16, brightnessByte level = b := by
  revert b
  decide

/-- A number as a string of binary digits, the most significant first, after one leading zero. -/
def binaryString (n : Nat) : List Byte := 0x30 :: (Nat.digits 2 n).reverse.map fun d => BitVec.ofNat 8 (0x30 + d)

theorem binaryValue_binaryString (n : Nat) : binaryValue (binaryString n) = n := by
  have hd : ∀ d ∈ Nat.digits 2 n, (BitVec.ofNat 8 (0x30 + d)).toNat - 0x30 = d := by
    intro d hd
    have hlt := Nat.digits_lt_base (by decide) hd
    interval_cases d <;> rfl
  have hmap : ((Nat.digits 2 n).map fun d => (BitVec.ofNat 8 (0x30 + d)).toNat - 0x30) = Nat.digits 2 n :=
    (List.map_congr_left hd).trans (List.map_id' _)
  rw [binaryValue_eq_ofDigits, binaryString, List.reverse_cons, List.map_append, ← List.map_reverse, List.reverse_reverse,
    List.map_map, Function.comp_def, hmap, Nat.ofDigits_append, Nat.ofDigits_digits]
  simp

theorem mem_binaryString {n : Nat} {c : Byte} (h : c ∈ binaryString n) : c = 0x30 ∨ c = 0x31 := by
  simp only [binaryString, List.mem_cons, List.mem_map, List.mem_reverse] at h
  rcases h with rfl | ⟨d, hd, rfl⟩
  · exact .inl rfl
  · have hlt := Nat.digits_lt_base (by decide) hd
    interval_cases d
    · exact .inl rfl
    · exact .inr rfl

/-- Every word is the value of its string. -/
theorem parseBinary_binaryString (w : Word16) : parseBinary (binaryString w.toNat) = .value w := by
  rw [parseBinary_of_good (binaryString w.toNat) (List.cons_ne_nil _ _) fun _ => mem_binaryString, binaryValue_binaryString, if_neg (by omega)]
  simp

theorem length_binaryString_le (w : Word16) : (binaryString w.toNat).length ≤ 17 := by
  have hlen := (Nat.digits_length_le_iff (b := 2) (k := 16) (by decide) w.toNat).mpr w.isLt
  simpa [binaryString, Nat.lt_succ_iff] using hlen

/-- WRITE_BINARY writes any word at any of the four positions. -/
theorem exists_plan_writeWord {p : Nat} (hp : p ≤ 3) (w : Word16) : ∃ i : Instr, i.wellFormed = true ∧
    plan i = .ok [.writeWord (physicalRegister p) w] := by
  refine ⟨.writeBinary p (binaryString w.toNat), ?_, plan_writeBinary_eq_ok_iff.mpr ⟨hp, w, parseBinary_binaryString w, rfl⟩⟩
  have hpos : p < 256 := by omega
  have hlen : (binaryString w.toNat).length < 256 := (length_binaryString_le w).trans_lt (by decide)
  simp [Instr.wellFormed, fitsByte, hpos, hlen]

/-- Each member of R50's set is in the list of some well-formed command. -/
theorem exists_plan_of_issuable {r : Request} (h : issuable r = true) :
    ∃ (i : Instr) (reqs : List Request), i.wellFormed = true ∧ plan i = .ok reqs ∧ r ∈ reqs := by
  rcases (issuable_iff r).mp h with rfl | ⟨b, rfl, rfl | rfl | rfl | ⟨hlo, hhi⟩⟩ | rfl | ⟨o, w, rfl, ho⟩ | rfl | rfl
  · exact ⟨.start, _, rfl, rfl, by simp [startRequests]⟩
  · exact ⟨.start, _, rfl, plan_start, by simp⟩
  · exact ⟨.setDisplay false, _, rfl, rfl, by decide⟩
  · exact ⟨.setDisplay true, _, rfl, rfl, by decide⟩
  · obtain ⟨level, hl, rfl⟩ := exists_brightnessByte hlo hhi
    exact ⟨.setBrightness level, _, by simp [Instr.wellFormed, fitsByte, hl.trans (by decide : 16 < 256)], rfl, by simp⟩
  · exact ⟨.start, _, rfl, plan_start, by simp⟩
  · obtain ⟨p, hp, rfl⟩ : ∃ p ≤ 3, physicalRegister p = o := by
      rcases ho with rfl | rfl | rfl | rfl
      · exact ⟨0, by decide, rfl⟩
      · exact ⟨1, by decide, rfl⟩
      · exact ⟨2, by decide, rfl⟩
      · exact ⟨3, by decide, rfl⟩
    obtain ⟨i, hw, hplan⟩ := exists_plan_writeWord hp w
    exact ⟨i, _, hw, hplan, by simp⟩
  · exact ⟨.colon true, _, rfl, rfl, by decide⟩
  · exact ⟨.colon false, _, rfl, rfl, by decide⟩

/-- What a command adds to LOG comes from its list, so it is issuable. -/
theorem mem_log_of_exec {i : Instr} {s t : State} (h : exec i s = .next t) {x : LogEntry} (hx : x ∈ t.log) :
    x ∈ s.log ∨ issuable x.request = true := by
  rcases exec_cases h with ⟨code, -, rfl⟩ | ⟨reqs, hp, rfl⟩
  · exact .inl hx
  · obtain ⟨-, -, -, -, -, ⟨new, hlog, -, -, -, hnew, -⟩, -⟩ := drain_frame reqs (s.loadSeq reqs)
    rw [run, hlog, List.mem_append] at hx
    refine hx.imp id fun hx => ?_
    rw [hnew] at hx
    exact issuable_of_mem_plan hp (mem_logOf hx).1

/-- Settles O39: R50's set is what the invariant calls issuable; each member is in some command's list, and what a run appends to LOG
comes from its list. -/
theorem onlyTheListedRequestsAreIssued : Obligations.OnlyTheListedRequestsAreIssued := by
  unfold Obligations.OnlyTheListedRequestsAreIssued
  exact ⟨fun r => exists_plan_of_issuable, fun i s t h x hx => (mem_log_of_exec h hx).imp id (issuable_iff x.request).mp⟩

end Sys2Proof.Machine
end

section
/-! Proofs for 30_encoding.md: decoding undoes encoding and encoding undoes decoding (R51 to R61), the rows of the table (R54), which
commands are legal (R62), a command's length (R64) and the assembler (R65, R66). -/

namespace Sys2Proof

/-! What encoding makes, row by row (30_encoding.md R53 to R60). -/

theorem selectRow_encodeWord {i : Instr} (h : i.wellFormed = true) : selectRow (encodeWord i) = some i.mnemonic := by
  cases i with
  | start => exact Laws.EncodeSelectsRow.start h
  | setDisplay on => exact Laws.EncodeSelectsRow.setDisplay on h
  | setBrightness level => exact Laws.EncodeSelectsRow.setBrightness level h
  | colon on => exact Laws.EncodeSelectsRow.colon on h
  | clear => exact Laws.EncodeSelectsRow.clear h
  | writeBinary pos chars => exact Laws.EncodeSelectsRow.writeBinary pos chars h
  | writeDigit pos digit => exact Laws.EncodeSelectsRow.writeDigit pos digit h
  | writeNumber n => exact Laws.EncodeSelectsRow.writeNumber n h

theorem fitsByte_iff (n : Nat) : fitsByte n = true ↔ n < 256 := decide_eq_true_iff

theorem fitsNumber_iff (n : Int) : fitsNumber n = true ↔ -2147483648 ≤ n ∧ n ≤ 2147483647 := by
  simp [fitsNumber]

/-- A number that fits a byte field is read back from it. -/
theorem toNat_ofNat_of_fitsByte {n : Nat} (h : fitsByte n = true) : (BitVec.ofNat 8 n).toNat = n :=
  Nat.mod_eq_of_lt ((fitsByte_iff n).mp h)

/-- A number that fits the N field is read back from it. -/
theorem toInt_ofInt_of_fitsNumber {n : Int} (h : fitsNumber n = true) : (BitVec.ofInt 32 n).toInt = n := by
  obtain ⟨hlo, hhi⟩ := (fitsNumber_iff n).mp h
  exact BitVec.toInt_ofInt_eq_self (by decide) hlo (Int.lt_of_le_of_lt hhi (by decide))

/-- The payload has the length that the word's row asks for. -/
theorem length_payload {i : Instr} (h : i.wellFormed = true) : i.payload.length = i.mnemonic.payloadLength (encodeWord i) := by
  cases i with
  | writeBinary pos chars =>
    obtain ⟨-, hlen⟩ := Bool.and_eq_true_iff.mp h
    simp only [Instr.mnemonic, Mnemonic.payloadLength, Instr.payload, encodeWord, fieldL_packWord, toNat_ofNat_of_fitsByte hlen]
  | _ => rfl

/-- An on-flag is read back from the lowest bit of A (30_encoding.md R56). -/
theorem getLsbD_flagField (on : Bool) : (BitVec.ofNat 8 (flagField on)).getLsbD 0 = on := by
  cases on <;> rfl

/-- Each operand is read back from its field. -/
theorem operands_encodeWord {i : Instr} (h : i.wellFormed = true) : i.mnemonic.operands (encodeWord i) i.payload = i := by
  cases i with
  | start | clear => rfl
  | setDisplay on | colon on => simp only [Instr.mnemonic, Mnemonic.operands, encodeWord, fieldA_packWord, getLsbD_flagField]
  | setBrightness level =>
    simp only [Instr.mnemonic, Mnemonic.operands, encodeWord, fieldA_packWord, toNat_ofNat_of_fitsByte h]
  | writeBinary pos chars =>
    obtain ⟨hpos, -⟩ := Bool.and_eq_true_iff.mp h
    simp only [Instr.mnemonic, Mnemonic.operands, Instr.payload, encodeWord, fieldA_packWord, toNat_ofNat_of_fitsByte hpos]
  | writeDigit pos digit =>
    obtain ⟨hpos, hdigit⟩ := Bool.and_eq_true_iff.mp h
    simp only [Instr.mnemonic, Mnemonic.operands, encodeWord, fieldA_packWord, fieldB_packWord, toNat_ofNat_of_fitsByte hpos,
      toNat_ofNat_of_fitsByte hdigit]
  | writeNumber n => simp only [Instr.mnemonic, Mnemonic.operands, encodeWord, fieldN_packWord, toInt_ofInt_of_fitsNumber h]

/-- Settles O1: the word selects its own row, the payload has that row's length, and each operand is read back from its field. -/
theorem decodeOfEncodeGivesTheInstruction : Obligations.DecodeOfEncodeGivesTheInstruction := by
  unfold Obligations.DecodeOfEncodeGivesTheInstruction
  intro i h
  exact (decode_eq_ok_iff _ _ i).mpr ⟨i.mnemonic, selectRow_encodeWord h, length_payload h, (operands_encodeWord h).symm⟩

/-! What decoding reads, row by row. -/

/-- Decoding, with the selected row by its opcode and must-be-zero fields. -/
theorem decode_eq_ok_iff_fields (cw : CommandWord) (s : List Byte) (i : Instr) : decode cw s = .ok i ↔
    ∃ m : Mnemonic, fieldOp cw = m.opcode ∧ rowFields m cw ∧ s.length = m.payloadLength cw ∧ i = m.operands cw s := by
  simp only [decode_eq_ok_iff, selectRow_eq_some_iff, and_assoc]

theorem fitsByte_toNat (b : Byte) : fitsByte b.toNat = true := (fitsByte_iff _).mpr b.isLt

theorem fitsNumber_toInt (n : BitVec 32) : fitsNumber n.toInt = true := by
  have hlo := BitVec.le_toInt n
  have hhi := BitVec.toInt_lt (x := n)
  exact (fitsNumber_iff _).mpr (by omega)

theorem wellFormed_operands {m : Mnemonic} {cw : CommandWord} {s : List Byte} (hlen : s.length = m.payloadLength cw) :
    (m.operands cw s).wellFormed = true := by
  cases m with
  | start | setDisplay | colon | clear => rfl
  | setBrightness => exact fitsByte_toNat _
  | writeBinary =>
    refine Bool.and_eq_true_iff.mpr ⟨fitsByte_toNat _, ?_⟩
    rw [hlen]
    exact fitsByte_toNat _
  | writeDigit => exact Bool.and_eq_true_iff.mpr ⟨fitsByte_toNat _, fitsByte_toNat _⟩
  | writeNumber => exact fitsNumber_toInt _

theorem payload_operands {m : Mnemonic} {cw : CommandWord} {s : List Byte} (hlen : s.length = m.payloadLength cw) :
    (m.operands cw s).payload = s := by
  cases m with
  | writeBinary => rfl
  | _ => exact (List.eq_nil_of_length_eq_zero hlen).symm

/-- A word is packed from its own fields. -/
theorem packWord_fields (cw : CommandWord) :
    packWord (fieldOp cw) (fieldA cw).toNat (fieldB cw).toNat (fieldL cw).toNat (fieldN cw).toInt = cw := by
  apply word_ext <;> simp

/-- An A field below 2 is its on-flag (30_encoding.md R56). -/
theorem flagField_getLsbD {a : Byte} (h : a.toNat < 2) : flagField (a.getLsbD 0) = a.toNat := by
  revert a; decide

/-- Each field of a legal word is an operand of its row, the opcode, or zero. -/
theorem encodeWord_operands {m : Mnemonic} {cw : CommandWord} {s : List Byte} (hop : fieldOp cw = m.opcode)
    (hf : rowFields m cw) (hlen : s.length = m.payloadLength cw) : encodeWord (m.operands cw s) = cw := by
  refine Eq.trans ?_ (packWord_fields cw)
  rw [hop]
  cases m with
  | start | clear => obtain ⟨ha, hb, hl, hn⟩ := hf; rw [ha, hb, hl, hn]; rfl
  | setDisplay | colon => obtain ⟨ha, hb, hl, hn⟩ := hf; rw [hb, hl, hn, ← flagField_getLsbD ha]; rfl
  | setBrightness => obtain ⟨hb, hl, hn⟩ := hf; rw [hb, hl, hn]; rfl
  | writeBinary => obtain ⟨hb, hn⟩ := hf; rw [hb, hn, ← show s.length = (fieldL cw).toNat from hlen]; rfl
  | writeDigit => obtain ⟨hl, hn⟩ := hf; rw [hl, hn]; rfl
  | writeNumber => obtain ⟨ha, hb, hl⟩ := hf; rw [ha, hb, hl]; rfl

/-- Settles O2: the selected row's operands fit their fields, and packing them again gives every field of the word. -/
theorem eachCommandDecodesToOneWellFormedInstruction : Obligations.EachCommandDecodesToOneWellFormedInstruction := by
  unfold Obligations.EachCommandDecodesToOneWellFormedInstruction
  intro cw s i h
  obtain ⟨m, hop, hf, hlen, rfl⟩ := (decode_eq_ok_iff_fields cw s i).mp h
  exact ⟨wellFormed_operands hlen, congrArg₂ Command.mk (encodeWord_operands hop hf hlen) (payload_operands hlen)⟩

/-! The table of rows (30_encoding.md R54). -/

theorem row_eq_of_name_eq {r₁ r₂ : Row} (h₁ : r₁ ∈ rows) (h₂ : r₂ ∈ rows) (h : r₁.name = r₂.name) : r₁ = r₂ :=
  List.inj_on_of_nodup_map (f := Row.name) (l := rows) (by decide) h₁ h₂ h

/-- Settles O3: two rows that select one word both have the word's opcode, so they are one row. -/
theorem noWordSelectsTwoRows : Obligations.NoWordSelectsTwoRows := by
  unfold Obligations.NoWordSelectsTwoRows
  refine ⟨rfl, fun r cw => beq_iff_eq, fun cw r₁ h₁ r₂ h₂ s₁ s₂ => row_eq_of_name_eq h₁ h₂ ?_⟩
  obtain ⟨hop₁, -⟩ := (selects_iff h₁ cw).mp s₁
  obtain ⟨hop₂, -⟩ := (selects_iff h₂ cw).mp s₂
  exact opcode_injective (hop₁.symm.trans hop₂)

/-- Settles O4: each of the nine words, decoded. -/
theorem specWordsDecodeAsWritten : Obligations.SpecWordsDecodeAsWritten := by
  unfold Obligations.SpecWordsDecodeAsWritten
  decide

/-! The legal commands (30_encoding.md R54, R61, R62) and their length (R64). -/

/-- The payload length a row asks for is told from OP and L. -/
theorem payloadLength_of_opcode {m : Mnemonic} {cw : CommandWord} (h : fieldOp cw = m.opcode) :
    m.payloadLength cw = streamPayload cw := by
  cases m <;> simp [Mnemonic.payloadLength, streamPayload, h, Mnemonic.opcode]

namespace Machine

theorem legalWord_of_opcode {m : Mnemonic} {cw : CommandWord} (h : fieldOp cw = m.opcode) :
    legalWord cw = true ↔ rowFields m cw := by
  cases m <;> simp [legalWord, h, Mnemonic.opcode, rowFields, and_assoc]

/-- A legal word has one of the eight opcodes. -/
theorem exists_opcode_of_legalWord {cw : CommandWord} (h : legalWord cw = true) : ∃ m : Mnemonic, fieldOp cw = m.opcode := by
  unfold legalWord at h
  split at h
  · next hop => exact ⟨.start, BitVec.eq_of_toNat_eq hop⟩
  · next hop => exact ⟨.setDisplay, BitVec.eq_of_toNat_eq hop⟩
  · next hop => exact ⟨.setBrightness, BitVec.eq_of_toNat_eq hop⟩
  · next hop => exact ⟨.colon, BitVec.eq_of_toNat_eq hop⟩
  · next hop => exact ⟨.clear, BitVec.eq_of_toNat_eq hop⟩
  · next hop => exact ⟨.writeBinary, BitVec.eq_of_toNat_eq hop⟩
  · next hop => exact ⟨.writeDigit, BitVec.eq_of_toNat_eq hop⟩
  · next hop => exact ⟨.writeNumber, BitVec.eq_of_toNat_eq hop⟩
  · next => cases h

theorem legalCommand_iff (c : Command) :
    legalCommand c = true ↔ legalWord c.word = true ∧ c.payload.length = streamPayload c.word := by
  rw [legalCommand, Bool.and_eq_true, beq_iff_eq]; rfl

/-- Settles O5: a legal word is one that a row selects, and the row asks for the payload length that OP and L tell. -/
theorem exactlyTheLegalCommandsDecode : Obligations.ExactlyTheLegalCommandsDecode := by
  unfold Obligations.ExactlyTheLegalCommandsDecode
  intro c
  rw [legalCommand_iff]
  constructor
  · rintro ⟨i, hi⟩
    obtain ⟨m, hop, hf, hlen, -⟩ := (decode_eq_ok_iff_fields _ _ i).mp hi
    exact ⟨(legalWord_of_opcode hop).mpr hf, hlen.trans (payloadLength_of_opcode hop)⟩
  · rintro ⟨hw, hlen⟩
    obtain ⟨m, hop⟩ := exists_opcode_of_legalWord hw
    exact ⟨_, (decode_eq_ok_iff_fields _ _ _).mpr
      ⟨m, hop, (legalWord_of_opcode hop).mp hw, hlen.trans (payloadLength_of_opcode hop).symm, rfl⟩⟩

/-- A command that decodes has the length its word tells. -/
theorem commandBytes_of_decode {cw : CommandWord} {s : List Byte} {i : Instr} (h : decode cw s = .ok i) :
    commandBytes cw = 8 + s.length := by
  obtain ⟨m, hop, -, hlen, -⟩ := (decode_eq_ok_iff_fields cw s i).mp h
  rw [commandBytes, hlen, payloadLength_of_opcode hop]

/-- Settles O6: the two cases of the definition; an encoded instruction decodes, and what decodes has the length its word tells. -/
theorem commandLengthIsToldByTheWord : Obligations.CommandLengthIsToldByTheWord := by
  unfold Obligations.CommandLengthIsToldByTheWord
  refine ⟨fun cw => ?_, fun i h => commandBytes_of_decode (decodeOfEncodeGivesTheInstruction i h),
    fun cw s i => commandBytes_of_decode⟩
  exact apply_ite (8 + ·) (fieldOp cw = 0x06) (fieldL cw).toNat 0

/-- Settles O9: what is not legal does not decode, and the step ends such a command at once. -/
theorem illegalCommandsIssueNoRequest : Obligations.IllegalCommandsIssueNoRequest := by
  unfold Obligations.IllegalCommandsIssueNoRequest
  intro s c rest hr hi hc hbad
  rcases hd : decode c.word c.payload with e | i
  · rw [step_of_presented hr hi hc, execCommand_of_error hd]
    rfl
  · have hgood := (exactlyTheLegalCommandsDecode c).mp ⟨i, hd⟩
    rw [hbad] at hgood
    cases hgood

/-! The assembler (30_encoding.md R65, R66). -/

theorem assemble_eq_some_iff (line : String) (c : Command) :
    assemble line = some c ↔ ∃ i, parseLine line = some i ∧ i.wellFormed = true ∧ encode i = c := by
  unfold assemble
  cases parseLine line with
  | none => simp
  | some i => simp

/-- Settles O7: the assembler encodes the well-formed instruction it has parsed, and decoding gives that back. -/
theorem assembledLinesDecode : Obligations.AssembledLinesDecode := by
  unfold Obligations.AssembledLinesDecode
  refine ⟨fun line c h => ?_, by decide, by decide, by decide, by decide⟩
  obtain ⟨i, hp, hw, rfl⟩ := (assemble_eq_some_iff line c).mp h
  exact ⟨i, hp, hw, decodeOfEncodeGivesTheInstruction i hw⟩

end Machine

end Sys2Proof
end

section
/-! Proofs for 40_control.md: START (R67, R68), SET_DISPLAY (R69), SET_BRIGHTNESS (R70, R71) and the command bytes (R72). -/

namespace Sys2Proof.Machine

/-! A command whose list is answered: throughout, or up to a failure (10_state.md R27, R28). -/

theorem exec_of_all_ok {i : Instr} {reqs : List Request} (hp : plan i = .ok reqs) {s : State} {as rest : List Answer}
    (hl : as.length = reqs.length) (hok : allOk as = true) (ha : s.answers = as ++ rest) :
    exec i s = .next { s with seq := reqs, k := reqs.length, answers := rest, log := s.log ++ logOf reqs as,
                              phase := .idle, result := some ⟨.ok, none⟩ } := by
  rw [exec_of_plan_ok hp, run_of_all_ok hl hok ha]

theorem exec_of_fail {i : Instr} {before later : List Request} {r : Request} (hp : plan i = .ok (before ++ r :: later)) {s : State}
    {as rest : List Answer} {e : FailValue} (hl : as.length = before.length) (hok : allOk as = true)
    (ha : s.answers = as ++ .fail e :: rest) :
    exec i s = .next { s with seq := before ++ r :: later, k := before.length, answers := rest,
                              log := s.log ++ logOf before as ++ [⟨r, .fail e⟩],
                              phase := .idle, result := some ⟨.errTransport, some e⟩ } := by
  rw [exec_of_plan_ok hp, run_of_fail hl hok ha]

/-- The two ends of a command with one request. -/
theorem exec_of_plan_singleton {i : Instr} {r : Request} (hp : plan i = .ok [r]) :
    (∀ (s : State) (v : Byte) (rest : List Answer), s.answers = .ok v :: rest →
      exec i s = .next { s with seq := [r], k := 1, answers := rest, phase := .idle, result := some ⟨.ok, none⟩,
                                log := s.log ++ [⟨r, respond r (.ok v)⟩] }) ∧
    (∀ (s : State) (e : FailValue) (rest : List Answer), s.answers = .fail e :: rest →
      exec i s = .next { s with seq := [r], k := 0, answers := rest, phase := .idle, result := some ⟨.errTransport, some e⟩,
                                log := s.log ++ [⟨r, .fail e⟩] }) := by
  refine ⟨fun s v rest ha => exec_of_all_ok hp (as := [.ok v]) rfl rfl ha, fun s e rest ha => ?_⟩
  have hfail := exec_of_fail (before := []) (later := []) hp (as := []) rfl rfl ha
  rwa [logOf_nil_left, List.append_nil] at hfail

/-- Settles O22: START's list is those five requests, answered `Ok` throughout or up to a failure. -/
theorem startIssuesItsFiveRequests : Obligations.StartIssuesItsFiveRequests := by
  unfold Obligations.StartIssuesItsFiveRequests
  refine ⟨by decide, ?_⟩
  rintro reqs rfl
  refine ⟨fun s v₁ v₂ v₃ v₄ v₅ rest ha => ?_, fun s before later r as rest e hcut hl hok ha => ?_⟩
  · exact exec_of_all_ok plan_start (as := [.ok v₁, .ok v₂, .ok v₃, .ok v₄, .ok v₅]) rfl rfl ha
  · rw [hcut]
    exact exec_of_fail (plan_start.trans (congrArg Except.ok hcut)) hl hok ha

/-- Settles O24: the display byte for each of the two flags, and the two ends of a command with one request. -/
theorem setDisplayWritesItsCommandByte : Obligations.SetDisplayWritesItsCommandByte := by
  unfold Obligations.SetDisplayWritesItsCommandByte
  refine fun on => ⟨by cases on <;> decide, fun b hb => ?_⟩
  obtain rfl : displayByte on = b := by rw [hb]; cases on <;> rfl
  exact exec_of_plan_singleton (i := .setDisplay on) rfl

/-! SET_BRIGHTNESS. -/

/-- SET_BRIGHTNESS's command word, as the encoding line of R70 writes it. -/
theorem encode_setBrightness {level : Nat} (h : level < 256) :
    encode (.setBrightness level) = ⟨(0x0000000000000003 : CommandWord) ||| (BitVec.ofNat 64 level <<< 8), []⟩ := by
  have hword := packWord_eq_or 0x03 level 0 0 (by decide) h (by decide) (by decide)
  simp only [BitVec.shiftLeft_zero, BitVec.zero_shiftLeft, BitVec.or_zero] at hword
  exact congrArg (Command.mk · []) hword

/-- Settles O25: the clamp is the case split of `min`, and the level's byte is the one request. -/
theorem setBrightnessClampsAndWrites : Obligations.SetBrightnessClampsAndWrites := by
  unfold Obligations.SetBrightnessClampsAndWrites
  refine fun level h => ⟨encode_setBrightness h, fun b hb => ?_⟩
  obtain rfl : brightnessByte level = b := by rw [hb, brightnessByte, clamp15, min_def, brightnessRegister]
  exact exec_of_plan_singleton (i := .setBrightness level) rfl

/-! The composition of a command byte (40_control.md R72). -/

/-- A register's byte and a value of the low nibble have no bit in common, so no carry arises. -/
theorem register_or_field_eq_add {register field : Byte} (hr : register &&& 0x0F = 0) (hf : 0x0F &&& field = field) :
    register ||| field = register + field := by
  have hdisjoint : register &&& field = 0 := by
    rw [← hf, ← BitVec.and_assoc, hr]
    exact BitVec.zero_and
  exact (BitVec.add_eq_or_of_and_eq_zero register field hdisjoint).symm

/-- A clamped level lies in the low nibble. -/
theorem lowNibble_and_clampedLevel (level : Nat) : 0x0F &&& BitVec.ofNat 8 (min level 15) = BitVec.ofNat 8 (min level 15) := by
  have small : ∀ n < 16, 0x0F &&& BitVec.ofNat 8 n = BitVec.ofNat 8 n := by decide
  exact small _ (by omega)

/-- A brightness byte has the high nibble of its register. -/
theorem highNibble_brightnessByte (level : Nat) : (brightnessByte level).extractLsb' 4 4 = 0xE := by
  obtain ⟨hlo, hhi⟩ := brightnessByte_range level
  apply BitVec.eq_of_toNat_eq
  rw [BitVec.extractLsb'_toNat, Nat.shiftRight_eq_div_pow]
  change _ = 14
  omega

/-- Settles O26: each byte is its register's OR with a field by definition, and the OR is a sum because the field keeps to the low
nibble. -/
theorem commandByteOrIsASum : Obligations.CommandByteOrIsASum := by
  unfold Obligations.CommandByteOrIsASum
  refine ⟨⟨rfl, register_or_field_eq_add (by decide) (by decide)⟩, ?_, ?_⟩
  · rintro on f rfl
    exact ⟨rfl, register_or_field_eq_add (by decide) (by cases on <;> decide)⟩
  · rintro level f rfl
    exact ⟨rfl, register_or_field_eq_add (by decide) (lowNibble_and_clampedLevel level), highNibble_brightnessByte level⟩

end Sys2Proof.Machine
end

section
/-! Proofs for 41_panel.md: COLON (R73, R74), CLEAR (R75), WRITE_BINARY (R76) and its string (R77), WRITE_DIGIT (R79, R80), and what a
validation error leaves (R78, R89). -/

namespace Sys2Proof.Machine

/-! CLEAR (41_panel.md R75). -/

/-- The view of a log to which a list's `Ok` answers are appended. -/
theorem commandedView_append_logOf (log : List LogEntry) {reqs : List Request} {as : List Answer} (hl : as.length = reqs.length)
    (hok : allOk as = true) : commandedView (log ++ logOf reqs as) = viewIssued (commandedView log) reqs := by
  rw [commandedView, List.foldl_append]
  exact foldl_viewEntry_logOf reqs _ as hl hok

theorem plan_clear : plan .clear = .ok clearRequests := rfl

/-- Settles O28: CLEAR's list is those five writes, answered `Ok` throughout, which blanks every slot and no other element, or up to a
failure. -/
theorem clearWritesZeroToFiveSlots : Obligations.ClearWritesZeroToFiveSlots := by
  unfold Obligations.ClearWritesZeroToFiveSlots
  refine ⟨by decide, ?_⟩
  rintro reqs rfl
  refine ⟨fun s v₁ v₂ v₃ v₄ v₅ rest ha => ?_, fun s before later r as rest e hcut hl hok ha => ?_⟩
  · have hexec := exec_of_all_ok plan_clear (as := [.ok v₁, .ok v₂, .ok v₃, .ok v₄, .ok v₅]) rfl rfl ha
    refine ⟨_, hexec, rfl, ?_⟩
    rw [State.view, commandedView_append_logOf s.log rfl rfl, viewIssued_clearRequests]
    exact ⟨Vector.map_replicate, rfl, rfl, rfl⟩
  · rw [hcut]
    exact exec_of_fail (plan_clear.trans (congrArg Except.ok hcut)) hl hok ha

/-! The binary string (41_panel.md R77). -/

/-- Leading zeros add nothing to a string's value. -/
theorem binaryValue_dropWhile_zero (s : List Byte) : binaryValue (s.dropWhile (· == 0x30)) = binaryValue s := by
  induction s with
  | nil => rfl
  | cons c s ih =>
    by_cases hc : c = 0x30
    · subst hc
      exact ih
    · rw [List.dropWhile_cons_of_neg (by simpa using hc)]

/-- A string without a leading zero is its value's base-2 digits. -/
theorem digits_binaryValue {s : List Byte} (h : ∀ c ∈ s, c = 0x30 ∨ c = 0x31) (hlead : ∀ hs : s ≠ [], s.head hs ≠ 0x30) :
    Nat.digits 2 (binaryValue s) = s.reverse.map fun c => c.toNat - 0x30 := by
  rw [binaryValue_eq_ofDigits]
  refine Nat.digits_ofDigits 2 (by decide) _ ?_ ?_
  · intro d hd
    obtain ⟨c, hc, rfl⟩ := List.mem_map.mp hd
    rcases h c (List.mem_reverse.mp hc) with rfl | rfl <;> decide
  · intro hne
    have hs : s ≠ [] := by simpa using hne
    have hone : s.head hs = 0x31 := (h _ (List.head_mem hs)).resolve_left (hlead hs)
    simp [List.getLast_reverse, hone]

/-- The value fits 16 bits exactly when at most 16 characters follow the leading zeros. -/
theorem binaryValue_lt_iff_length_le {s : List Byte} (h : ∀ c ∈ s, c = 0x30 ∨ c = 0x31) :
    binaryValue s < 2 ^ 16 ↔ (s.dropWhile (· == 0x30)).length ≤ 16 := by
  have hbits := digits_binaryValue (s := s.dropWhile (· == 0x30)) (fun c hc => h c (List.dropWhile_subset _ hc))
    (fun hs => by simpa using List.head_dropWhile_not (· == 0x30) hs)
  rw [binaryValue_dropWhile_zero] at hbits
  rw [← Nat.digits_length_le_iff (by decide), hbits, List.length_map, List.length_reverse]

section
variable {s : List Byte} (h0 : s ≠ []) (h : ∀ c ∈ s, c = 0x30 ∨ c = 0x31)
include h0 h

theorem parseBinary_ne_malformed : parseBinary s ≠ .malformed := by
  rw [parseBinary_of_good s h0 h]
  split <;> nofun

theorem parseBinary_eq_overlong_iff : parseBinary s = .overlong ↔ 0xFFFF < binaryValue s := by
  simp [parseBinary_of_good s h0 h]

theorem parseBinary_eq_value_iff {v : Word16} : parseBinary s = .value v ↔ v.toNat = binaryValue s := by
  rw [parseBinary_of_good s h0 h]
  have hv := v.isLt
  split
  · next hbig =>
    simp only [reduceCtorEq, false_iff]
    omega
  · next hfits =>
    rw [ParsedBinary.value.injEq, ← BitVec.toNat_inj, BitVec.toNat_ofNat, Nat.mod_eq_of_lt (by omega), eq_comm]

end

theorem parseBinary_eq_malformed_iff (s : List Byte) :
    parseBinary s = .malformed ↔ s = [] ∨ ∃ c ∈ s, c ≠ 0x30 ∧ c ≠ 0x31 := by
  refine ⟨fun hbad => ?_, parseBinary_of_bad s⟩
  by_contra hgood
  push Not at hgood
  obtain ⟨h0, hdigits⟩ := hgood
  exact parseBinary_ne_malformed h0 (fun c hc => or_iff_not_imp_left.mpr (hdigits c hc)) hbad

/-- Settles O29: the three answers by value, and the value's bound by the length of the string without its leading zeros. -/
theorem binaryStringsParseAsBaseTwo : Obligations.BinaryStringsParseAsBaseTwo := by
  unfold Obligations.BinaryStringsParseAsBaseTwo
  refine ⟨parseBinary_eq_malformed_iff, fun s h0 h => ?_⟩
  have hlen := binaryValue_lt_iff_length_le h
  refine ⟨?_, fun v => ?_⟩
  · rw [parseBinary_eq_overlong_iff h0 h]
    omega
  · rw [parseBinary_eq_value_iff h0 h, ← binaryValue_eq_ofDigits, ← hlen]
    have hv := v.isLt
    omega

/-! The offsets of R40 and the patterns of R20, as the statements list them. -/

theorem physicalRegister_table : ∀ x ∈ ([(0, 0x00), (1, 0x02), (2, 0x06), (3, 0x08)] : List (Nat × Byte)),
    x.1 ≤ 3 ∧ physicalRegister x.1 = x.2 := by decide

theorem seg_table : ∀ x ∈ ([(0, 0x0C3F), (1, 0x0006), (2, 0x00DB), (3, 0x004F), (4, 0x00E6), (5, 0x00ED), (6, 0x00FD),
    (7, 0x0007), (8, 0x00FF), (9, 0x00EF)] : List (Nat × Word16)), ∃ h : x.1 < 10, seg ⟨x.1, h⟩ = x.2 := by decide

/-! WRITE_BINARY (41_panel.md R76). -/

/-- WRITE_BINARY's command word, as the encoding line of R76 writes it. -/
theorem encode_writeBinary {pos : Nat} {chars : List Byte} (hp : pos < 256) (hl : chars.length < 256) :
    encode (.writeBinary pos chars) =
      ⟨(0x0000000000000006 : CommandWord) ||| (BitVec.ofNat 64 pos <<< 8) ||| (BitVec.ofNat 64 chars.length <<< 24), chars⟩ := by
  have hword := packWord_eq_or 0x06 pos 0 chars.length (by decide) hp (by decide) hl
  simp only [BitVec.shiftLeft_zero, BitVec.zero_shiftLeft, BitVec.or_zero] at hword
  exact congrArg (Command.mk · chars) hword

theorem plan_writeBinary_of_position {pos : Nat} (h : 3 < pos) (chars : List Byte) :
    plan (.writeBinary pos chars) = .error .errPositionRange := if_pos h

theorem plan_writeBinary_of_malformed {pos : Nat} {chars : List Byte} (hp : pos ≤ 3) (h : parseBinary chars = .malformed) :
    plan (.writeBinary pos chars) = .error .errBinaryMalformed := by
  rw [plan, planWriteBinary, if_neg (by omega), h]

theorem plan_writeBinary_of_overlong {pos : Nat} {chars : List Byte} (hp : pos ≤ 3) (h : parseBinary chars = .overlong) :
    plan (.writeBinary pos chars) = .error .errBinaryOverlong := by
  rw [plan, planWriteBinary, if_neg (by omega), h]

/-- Settles O30: each of the three errors by its condition on position and string, and else the list of one write. -/
theorem writeBinaryChecksThenWritesOneWord : Obligations.WriteBinaryChecksThenWritesOneWord := by
  unfold Obligations.WriteBinaryChecksThenWritesOneWord
  refine ⟨fun pos chars => encode_writeBinary, fun pos chars s hp => ?_, fun pos chars s hp hbad => ?_,
    fun pos chars s hp h0 h hbig => ?_, fun pos chars w o h0 h hw hpos => ?_⟩
  · exact exec_of_plan_error (plan_writeBinary_of_position hp chars) s
  · exact exec_of_plan_error (plan_writeBinary_of_malformed hp (parseBinary_of_bad chars hbad)) s
  · rw [← binaryValue_eq_ofDigits] at hbig
    exact exec_of_plan_error (plan_writeBinary_of_overlong hp ((parseBinary_eq_overlong_iff h0 h).mpr hbig)) s
  · rw [← binaryValue_eq_ofDigits] at hw
    obtain ⟨hp, rfl⟩ : pos ≤ 3 ∧ physicalRegister pos = o := physicalRegister_table _ hpos
    exact exec_of_plan_singleton (plan_writeBinary_eq_ok_iff.mpr ⟨hp, w, (parseBinary_eq_value_iff h0 h).mpr hw, rfl⟩)

/-! WRITE_DIGIT (41_panel.md R79, R80). -/

/-- WRITE_DIGIT's command word, as the encoding line of R79 writes it. -/
theorem encode_writeDigit {pos digit : Nat} (hp : pos < 256) (hd : digit < 256) :
    encode (.writeDigit pos digit) =
      ⟨(0x0000000000000007 : CommandWord) ||| (BitVec.ofNat 64 pos <<< 8) ||| (BitVec.ofNat 64 digit <<< 16), []⟩ := by
  have hword := packWord_eq_or 0x07 pos digit 0 (by decide) hp hd (by decide)
  simp only [BitVec.shiftLeft_zero, BitVec.zero_shiftLeft, BitVec.or_zero] at hword
  exact congrArg (Command.mk · []) hword

theorem plan_writeDigit_of_position {pos : Nat} (h : 3 < pos) (digit : Nat) :
    plan (.writeDigit pos digit) = .error .errPositionRange := if_pos h

theorem plan_writeDigit_of_digit {pos digit : Nat} (hp : pos ≤ 3) (h : 9 < digit) :
    plan (.writeDigit pos digit) = .error .errDigitTooLarge := by
  rw [plan, planWriteDigit, if_neg (by omega), dif_neg (by omega)]

/-- Settles O31: each of the two errors by its condition, and else the list of one write. -/
theorem writeDigitChecksThenWritesItsPattern : Obligations.WriteDigitChecksThenWritesItsPattern := by
  unfold Obligations.WriteDigitChecksThenWritesItsPattern
  refine ⟨fun pos digit => encode_writeDigit, fun pos digit s hp => ?_, fun pos digit s hp hd => ?_,
    fun pos digit o w hpos hdigit => ?_⟩
  · exact exec_of_plan_error (plan_writeDigit_of_position hp digit) s
  · exact exec_of_plan_error (plan_writeDigit_of_digit hp hd) s
  · obtain ⟨hp, rfl⟩ : pos ≤ 3 ∧ physicalRegister pos = o := physicalRegister_table _ hpos
    obtain ⟨hd, rfl⟩ : ∃ hd : digit < 10, seg ⟨digit, hd⟩ = w := seg_table _ hdigit
    exact exec_of_plan_singleton (plan_writeDigit_eq_ok_iff.mpr ⟨hp, hd, rfl⟩)

/-- Settles O32: both commands have the same list of one write. -/
theorem writeDigitIsWriteBinaryOfItsPattern : Obligations.WriteDigitIsWriteBinaryOfItsPattern := by
  unfold Obligations.WriteDigitIsWriteBinaryOfItsPattern
  intro pos d chars s hp hv
  have hdigit := plan_writeDigit_eq_ok_iff.mpr ⟨hp, d.isLt, rfl⟩
  have hbinary := plan_writeBinary_eq_ok_iff.mpr ⟨hp, seg d, hv, rfl⟩
  rw [exec_of_plan_ok hdigit, exec_of_plan_ok hbinary]

/-! Validation errors (41_panel.md R78). -/

/-- Settles O38: a plan that is an error has a validation error's code, and the command is that error raised. -/
theorem validationErrorsChangeOnlyResultAndPhase : Obligations.ValidationErrorsChangeOnlyResultAndPhase := by
  unfold Obligations.ValidationErrorsChangeOnlyResultAndPhase
  exact fun i code s hp => ⟨plan_error_code hp, exec_of_plan_error hp s⟩

/-! The colon slot (41_panel.md R73, R74). -/

theorem writeWord_notMem_startRequests (c : Config.Construction) (o : Byte) (w : Word16) :
    .writeWord o w ∉ startRequests c := by
  simp [startRequests]

theorem eq_zero_of_writeWord_mem_clearRequests {o : Byte} {w : Word16} (h : .writeWord o w ∈ clearRequests) : w = 0x0000 := by
  obtain ⟨slot, -, hslot⟩ := List.mem_map.mp h
  cases hslot
  rfl

/-- Settles O40: of the commands a request can come from, START and the two settings write no word, and no position maps to the colon's
offset. -/
theorem onlyColonAndClearWriteTheColonSlot : Obligations.OnlyColonAndClearWriteTheColonSlot := by
  unfold Obligations.OnlyColonAndClearWriteTheColonSlot
  intro i reqs w hp hmem
  rcases mem_plan hp hmem with ⟨_, hs⟩ | ⟨_, _, hr⟩ | ⟨_, _, hr⟩ | ⟨on, hi, hr⟩ | ⟨hi, hc⟩ | ⟨p, w', hpos, hr⟩
  · exact absurd hs (writeWord_notMem_startRequests _ _ _)
  · cases hr
  · cases hr
  · exact .inl ⟨on, hi, (Request.writeWord.inj hr).2⟩
  · exact .inr ⟨hi, eq_zero_of_writeWord_mem_clearRequests hc⟩
  · exact absurd (Request.writeWord.inj hr).1.symm (physicalRegister_ne_colonOffset hpos)

/-- Settles O27: the digit commands' one write is at a position's offset, which is never the colon's, and COLON's list is its one
write. -/
theorem colonWritesTheColonSlot : Obligations.ColonWritesTheColonSlot := by
  unfold Obligations.ColonWritesTheColonSlot
  refine ⟨fun pos digit chars reqs w hp hmem => ?_, fun on => ⟨by cases on <;> decide, ?_⟩⟩
  · obtain ⟨-, -, -, hlists⟩ := positionsSkipTheColonSlot
    obtain ⟨hpos, w', rfl⟩ := hlists pos digit chars reqs hp
    obtain ⟨ho, -⟩ := Request.writeWord.inj (List.mem_singleton.mp hmem)
    exact physicalRegister_ne_colonOffset hpos ho.symm
  · rintro w rfl
    exact exec_of_plan_singleton (i := .colon on) rfl

end Sys2Proof.Machine
end

section
/-! Proofs for 42_number.md: the decimal decomposition (R81), the two range errors (R82, R83), and the clear and the digits that
WRITE_NUMBER issues (R83 to R85). -/

namespace Sys2Proof.Machine

/-! The decomposition (42_number.md R81). -/

/-- Settles O33: the four elements are those quotients by definition, and the number is recomposed from them by division with remainder. -/
theorem splitGivesTheFourDecimalDigits : Obligations.SplitGivesTheFourDecimalDigits := by
  unfold Obligations.SplitGivesTheFourDecimalDigits
  refine fun n h => ⟨rfl, fun d _ => Nat.le_of_lt_succ d.isLt, ?_⟩
  change Nat.ofDigits 10 [n % 10, n / 10 % 10, n / 100 % 10, n / 1000] = n
  simp only [Nat.ofDigits_cons, Nat.ofDigits_nil]
  omega

/-- A number up to 9999 has at most four decimal digits. -/
theorem length_digits_le_four {n : Nat} (h : n ≤ 9999) : (Nat.digits 10 n).length ≤ 4 :=
  (Nat.digits_length_le_iff (by decide) n).mpr (by omega)

/-- The four elements are the number's digits, most significant first, after zeros that fill them up to four. -/
theorem map_val_split {n : Nat} (h : n ≤ 9999) :
    (split n h).map Fin.val = List.replicate (4 - (Nat.digits 10 n).length) 0 ++ (Nat.digits 10 n).reverse := by
  obtain ⟨-, -, hval⟩ := splitGivesTheFourDecimalDigits n h
  have hdigits : ((split n h).map Fin.val).reverse ∈ {L : List Nat | L.length = 4 ∧ ∀ x ∈ L, x < 10} :=
    ⟨rfl, fun x hx => by
      obtain ⟨d, -, rfl⟩ := List.mem_map.mp (List.mem_reverse.mp hx)
      exact d.isLt⟩
  have hpadded : Nat.digitsAppend 10 4 n = ((split n h).map Fin.val).reverse := by
    have hinv := (Nat.setInvOn_digitsAppend_ofDigits (by decide) 4).1 hdigits
    rwa [hval] at hinv
  rw [← List.reverse_reverse ((split n h).map Fin.val), ← hpadded, Nat.digitsAppend, List.reverse_append, List.reverse_replicate]

/-- The first of a number's decimal digits is not zero. -/
theorem ne_zero_of_mem_head?_digits {n d : Nat} (hd : d ∈ (Nat.digits 10 n).reverse.head?) : d ≠ 0 := by
  rw [List.head?_reverse] at hd
  obtain ⟨hne, rfl⟩ := List.mem_getLast?_eq_getLast hd
  exact Nat.getLast_digit_ne_zero 10 (Nat.digits_ne_nil_iff_ne_zero.mp hne)

/-! The scan (42_number.md R83, R85). -/

/-- Leading zeros are skipped, and each uses up a position. -/
theorem scanDigits_replicate_zero_append (k : Nat) (ds : List (Fin 10)) :
    ∀ pos, scanDigits pos false (List.replicate k 0 ++ ds) = scanDigits (pos + k) false ds := by
  induction k with
  | zero => exact fun _ => rfl
  | succ k ih => exact fun pos => (ih (pos + 1)).trans (by rw [Nat.add_right_comm, Nat.add_assoc])

/-- Once a digit has been written, so is every later one, zeros too. -/
theorem scanDigits_seen (ds : List (Fin 10)) :
    ∀ pos, scanDigits pos true ds = (List.range' pos ds.length).zipWith digitRequest ds := by
  induction ds with
  | nil => exact fun _ => rfl
  | cons d ds ih => exact fun pos => congrArg (digitRequest pos d :: ·) (ih (pos + 1))

/-- From a first digit that is not zero on, nothing is blanked. -/
theorem scanDigits_of_head_ne_zero {ds : List (Fin 10)} (h : ∀ d ∈ ds.head?, d ≠ 0) (pos : Nat) :
    scanDigits pos false ds = scanDigits pos true ds := by
  cases ds with
  | nil => rfl
  | cons d ds => simp [scanDigits, h d rfl]

/-- The scan writes the number's own digits at the last positions. -/
theorem scanDigits_split {n : Nat} (h : n ≤ 9999) :
    scanDigits 0 false (split n h) =
      ([(0, 0x00), (1, 0x02), (2, 0x06), (3, 0x08)].drop (4 - (Nat.digits 10 n).length)).zipWith
        (fun (p : Nat × Byte) (d : Nat) => Request.writeWord p.2
          ([0x0C3F, 0x0006, 0x00DB, 0x004F, 0x00E6, 0x00ED, 0x00FD, 0x0007, 0x00FF, 0x00EF].getD d 0))
        (Nat.digits 10 n).reverse := by
  obtain ⟨zs, ds, hsplit, hzs, hds⟩ := List.map_eq_append_iff.mp (map_val_split h)
  obtain rfl : zs = List.replicate (4 - (Nat.digits 10 n).length) 0 :=
    List.map_injective_iff.mpr Fin.val_injective (by rw [hzs, List.map_replicate, Fin.val_zero])
  have hhead : ∀ d ∈ ds.head?, d ≠ 0 := fun d hd h0 =>
    ne_zero_of_mem_head?_digits (by rw [← hds, List.head?_map]; exact Option.mem_map_of_mem Fin.val hd) (congrArg Fin.val h0)
  have hlen : ds.length = (Nat.digits 10 n).length := by simpa using congrArg List.length hds
  have htable : ([(0, 0x00), (1, 0x02), (2, 0x06), (3, 0x08)] : List (Nat × Byte)) =
      (List.range' 0 4).map fun p => (p, physicalRegister p) := by decide
  rw [hsplit, scanDigits_replicate_zero_append, scanDigits_of_head_ne_zero hhead, scanDigits_seen, hlen, htable, ← List.map_drop,
    List.drop_range', Nat.mul_one, Nat.sub_sub_self (length_digits_le_four h), ← hds, List.zipWith_map]
  simp only [← seg_eq_getD]
  rfl

/-! WRITE_NUMBER (42_number.md R82, R83). -/

theorem plan_writeNumber_of_negative {n : Int} (h : n < 0) : plan (.writeNumber n) = .error .errNumberNegative := if_pos h

theorem plan_writeNumber_of_large {n : Int} (h : 9999 < n) : plan (.writeNumber n) = .error .errNumberTooLarge := by
  rw [plan, planWriteNumber, if_neg (by omega), dif_neg (by omega)]

/-- The clear's five requests, and one for each of the number's digits (42_number.md R84). -/
theorem length_numberRequests {n : Nat} (h : n ≤ 9999) : (numberRequests n h).length = 5 + (Nat.digits 10 n).length := by
  have hle := length_digits_le_four h
  simp only [numberRequests, clearRequests_eq, scanDigits_split h, List.length_append, List.length_cons, List.length_nil,
    List.length_zipWith, List.length_drop, List.length_reverse]
  omega

/-- Settles O34: each range error by its condition, and else the list of the clear and the scan, answered `Ok` throughout or up to a
failure. -/
theorem writeNumberClearsThenWritesItsDigits : Obligations.WriteNumberClearsThenWritesItsDigits := by
  unfold Obligations.WriteNumberClearsThenWritesItsDigits
  refine ⟨fun n => congrArg (Command.mk · []) (packWord_number n), fun n s hn => ?_, fun n s hn => ?_, fun n reqs hn hreqs => ?_⟩
  · exact exec_of_plan_error (plan_writeNumber_of_negative hn) s
  · exact exec_of_plan_error (plan_writeNumber_of_large hn) s
  · rw [← clearRequests_eq, ← scanDigits_split hn, ← numberRequests] at hreqs
    have hp : plan (.writeNumber n) = .ok reqs := hreqs ▸ plan_writeNumber hn
    have hlen : reqs.length = 5 + (Nat.digits 10 n).length := hreqs ▸ length_numberRequests hn
    refine ⟨fun s as rest hl hok ha => ?_, fun s before later r as rest e hcut hl hok ha => ?_⟩
    · rw [← hlen]
      exact exec_of_all_ok hp hl hok ha
    · rw [hcut] at hp ⊢
      exact exec_of_fail hp hl hok ha

end Sys2Proof.Machine
end

section
/-! Proofs for 60_exceptions.md: the result codes (R88), the end of a command at a failed request (R90), and that no error stops the
machine (R92, R93, R96). -/

namespace Sys2Proof.Machine

/-- Settles O18: the run of the command's list up to a failure. -/
theorem transportFailureEndsTheCommand : Obligations.TransportFailureEndsTheCommand := by
  unfold Obligations.TransportFailureEndsTheCommand
  intro i before later r s as rest e hp hl hok ha
  exact exec_of_fail hp hl hok ha

/-! A step's remaining cases, beside `step_of_busy` and `step_of_presented` (70_reset_and_hazards.md R103, R105). -/

theorem step_of_reset {s : State} (hr : s.resetLine = true) : step s = .next s.applyReset := if_pos hr

theorem step_of_no_command {s : State} (hr : s.resetLine = false) (hi : s.phase = .idle) (hc : s.commandPort = []) :
    step s = .next s := by
  simp [step, hr, hi, hc]

/-- An accepted command answers a next state, whether it decodes or not. -/
theorem exists_execCommand_eq_next (c : Command) (s : State) : ∃ t, execCommand c s = .next t := by
  rcases hd : decode c.word c.payload with e | i
  · exact ⟨_, execCommand_of_error hd s⟩
  · rw [execCommand_of_ok hd]
    exact exists_exec_eq_next i s

/-- Every step answers a next state: reset's, the running command's, the same state, or the accepted command's. -/
theorem exists_step_eq_next (s : State) : ∃ t, step s = .next t := by
  cases hr : s.resetLine with
  | true => exact ⟨_, step_of_reset hr⟩
  | false =>
    cases hp : s.phase with
    | busy => exact ⟨_, step_of_busy hr hp⟩
    | idle =>
      cases hc : s.commandPort with
      | nil => exact ⟨_, step_of_no_command hr hp hc⟩
      | cons c rest =>
        rw [step_of_presented hr hp hc]
        exact exists_execCommand_eq_next c _

/-- Settles O15: a command by its plan, and a step by reset, phase and port. -/
theorem everyCommandAndStepAnswersANextState : Obligations.EveryCommandAndStepAnswersANextState := by
  unfold Obligations.EveryCommandAndStepAnswersANextState
  exact ⟨exists_exec_eq_next, exists_step_eq_next⟩

/-! The result codes (R88). -/

/-- The nine codes in the order of R88's table. -/
def resultCodes : List ResultCode :=
  [.ok, .errIllegalCommand, .errPositionRange, .errDigitTooLarge, .errNumberTooLarge, .errNumberNegative, .errBinaryMalformed,
    .errBinaryOverlong, .errTransport]

theorem mem_resultCodes (c : ResultCode) : c ∈ resultCodes := by
  cases c <;> simp [resultCodes]

theorem map_number_resultCodes : resultCodes.map ResultCode.number = (List.range 9).map (BitVec.ofNat 8) := by decide

/-- The table's numbers are distinct, and every code stands in the table. -/
theorem ResultCode.number_injective : Function.Injective ResultCode.number := by
  have hnodup : (resultCodes.map ResultCode.number).Nodup := by
    rw [map_number_resultCodes]
    decide
  exact fun a b h => List.inj_on_of_nodup_map hnodup (mem_resultCodes a) (mem_resultCodes b) h

/-- Settles O45: the two columns of R88's table as written, and the numbers' distinctness from the first. -/
theorem resultCodesAreTheSpecsNumbers : Obligations.ResultCodesAreTheSpecsNumbers := by
  unfold Obligations.ResultCodesAreTheSpecsNumbers
  exact ⟨map_number_resultCodes, rfl, fun _ _ h => ResultCode.number_injective h⟩

end Sys2Proof.Machine
end

section
/-! Proofs for 70_reset_and_hazards.md: reset (R102 to R105), the dummy read after the oscillator-enable write (R109), and the bound on
a command's responses (R113). -/

namespace Sys2Proof.Machine

/-! The bound on a command's responses (70_reset_and_hazards.md R113). -/

/-- WRITE_NUMBER has a list exactly for a number in 0 to 9999 (42_number.md R82, R83). -/
theorem plan_writeNumber_eq_ok_iff {n : Int} {reqs : List Request} :
    plan (.writeNumber n) = .ok reqs ↔ ∃ m : Nat, n = m ∧ ∃ h : m ≤ 9999, reqs = numberRequests m h := by
  constructor
  · intro hp
    rcases lt_or_ge n 0 with hneg | hpos
    · cases (plan_writeNumber_of_negative hneg).symm.trans hp
    lift n to Nat using hpos
    rcases lt_or_ge 9999 n with hbig | hfits
    · cases (plan_writeNumber_of_large (by omega)).symm.trans hp
    · exact ⟨n, rfl, hfits, Except.ok.inj (hp.symm.trans (plan_writeNumber hfits))⟩
  · rintro ⟨m, rfl, h, rfl⟩
    exact plan_writeNumber h

/-- A planned list is as long as its command's count says. -/
theorem plan_length {i : Instr} {reqs : List Request} (h : plan i = .ok reqs) : reqs.length = requestCount i := by
  cases i with
  | start | setDisplay | setBrightness | colon | clear => cases h; rfl
  | writeBinary pos chars =>
    obtain ⟨-, w, -, rfl⟩ := plan_writeBinary_eq_ok_iff.mp h
    rfl
  | writeDigit pos digit =>
    obtain ⟨-, hd, rfl⟩ := plan_writeDigit_eq_ok_iff.mp h
    rfl
  | writeNumber n =>
    obtain ⟨m, rfl, hm, rfl⟩ := plan_writeNumber_eq_ok_iff.mp h
    exact length_numberRequests hm

/-- With an answer for each of its requests a run ends: only where the answers are fewer can it wait. -/
theorem run_ends {reqs : List Request} {s : State} (h : reqs.length ≤ s.answers.length) :
    (run reqs s).phase = .idle ∧ (run reqs s).result ≠ none := by
  rcases answers_meet_requests reqs s.answers with ⟨as, rest, ha, hl, hok⟩ |
    ⟨before, r, later, as, e, rest, rfl, ha, hl, hok⟩ | ⟨before, r, later, rfl, hl, -⟩
  · rw [run_of_all_ok hl hok ha]
    exact ⟨rfl, nofun⟩
  · rw [run_of_fail hl hok ha]
    exact ⟨rfl, nofun⟩
  · rw [List.length_append, List.length_cons] at h
    omega

/-- A run adds at most one entry to LOG for each of its requests. -/
theorem run_log_length_le (reqs : List Request) (s : State) : (run reqs s).log.length ≤ s.log.length + reqs.length := by
  obtain ⟨-, -, -, -, -, ⟨new, hlog, -, -, hle, -⟩, -⟩ := drain_frame reqs (s.loadSeq reqs)
  rw [run, hlog, List.length_append, State.loadSeq_log]
  omega

/-- With nine answers every command ends. -/
theorem exec_ends_of_nine_answers {i : Instr} {s t : State} (ha : 9 ≤ s.answers.length) (he : exec i s = .next t) :
    t.phase = .idle ∧ t.result ≠ none ∧ t.log.length ≤ s.log.length + 9 := by
  rcases exec_cases he with ⟨code, -, rfl⟩ | ⟨reqs, hp, rfl⟩
  · exact ⟨rfl, nofun, Nat.le_add_right _ _⟩
  · have hlen := plan_length_le_nine hp
    obtain ⟨hphase, hresult⟩ := run_ends (hlen.trans ha)
    exact ⟨hphase, hresult, (run_log_length_le reqs s).trans (Nat.add_le_add_left hlen _)⟩

/-- An accepted command without a list, undecoded or invalid, ends at once in an error. -/
theorem execCommand_of_no_list {c : Command} (h : ∀ i, decode c.word c.payload = .ok i → ∃ code, plan i = .error code)
    (s : State) : ∃ code, execCommand c s = .next (s.endCommand code none) := by
  rcases hd : decode c.word c.payload with e | i
  · exact ⟨_, execCommand_of_error hd s⟩
  · obtain ⟨code, hp⟩ := h i hd
    exact ⟨code, (execCommand_of_ok hd s).trans (exec_of_plan_error hp s)⟩

/-- Settles O21: the counts as defined, the lengths of the planned lists, a run that has an answer for each request, and an accepted
command that ends in an error without touching LOG or the answers. -/
theorem commandsEndWithinNineResponses : Obligations.CommandsEndWithinNineResponses := by
  unfold Obligations.CommandsEndWithinNineResponses
  refine ⟨⟨rfl, rfl, fun _ _ _ _ _ _ => ⟨rfl, rfl, rfl, rfl, rfl, rfl⟩⟩,
    fun i reqs hp => ⟨plan_length hp, plan_length_le_nine hp⟩, fun i s t => exec_ends_of_nine_answers,
    fun s c rest hr hi hc hbad => ?_⟩
  obtain ⟨code, hend⟩ := execCommand_of_no_list hbad (s.accept c rest)
  exact ⟨_, (step_of_presented hr hi hc).trans hend, rfl, rfl, rfl⟩

/-! The oscillator-enable write (70_reset_and_hazards.md R109). -/

theorem displayByte_ne_oscillatorByte (on : Bool) : displayByte on ≠ 0x21 := by
  cases on <;> decide

theorem brightnessByte_ne_oscillatorByte (level : Nat) : brightnessByte level ≠ 0x21 := by
  intro h
  obtain ⟨hlo, -⟩ := brightnessByte_range level
  rw [h] at hlo
  exact absurd hlo (by decide)

theorem writeByte_notMem_clearRequests (b : Byte) : .writeByte b ∉ clearRequests := by
  simp [clearRequests_eq]

/-- Of the commands a request can come from, only START's list holds the oscillator-enable write. -/
theorem oscillatorEnable_mem_plan {i : Instr} {reqs : List Request} (h : plan i = .ok reqs) (hmem : .writeByte 0x21 ∈ reqs) :
    i = .start := by
  rcases mem_plan h hmem with ⟨hi, -⟩ | ⟨on, -, hr⟩ | ⟨level, -, hr⟩ | ⟨_, _, hr⟩ | ⟨_, hc⟩ | ⟨_, _, _, hr⟩
  · exact hi
  · exact absurd (Request.writeByte.inj hr).symm (displayByte_ne_oscillatorByte on)
  · exact absurd (Request.writeByte.inj hr).symm (brightnessByte_ne_oscillatorByte level)
  · cases hr
  · exact absurd hc (writeByte_notMem_clearRequests 0x21)
  · cases hr

/-- Settles O41: the write is START's, whose list holds it once, before the dummy read. -/
theorem oscillatorEnableIsFollowedByTheDummyRead : Obligations.OscillatorEnableIsFollowedByTheDummyRead := by
  unfold Obligations.OscillatorEnableIsFollowedByTheDummyRead
  intro i before later hp
  obtain rfl : i = .start := oscillatorEnable_mem_plan hp (by simp)
  have hlist : [Request.openBus Config.construction.devAddr Config.construction.bus] ++
      .writeByte 0x21 :: [.readByte, .writeByte 0x81, .writeByte 0xEF] = before ++ .writeByte 0x21 :: later :=
    Except.ok.inj (plan_start.symm.trans hp)
  obtain ⟨-, -, hlater⟩ := (List.append_cons_inj_of_notMem (by simp) (by decide)).mp hlist
  exact ⟨rfl, _, hlater.symm⟩

/-! Reset (70_reset_and_hazards.md R102 to R105). -/

/-- Settles O11: a step in IDLE with an empty port answers the same state. -/
theorem idleEncoderWaitsForACommand : Obligations.IdleEncoderWaitsForACommand := by
  unfold Obligations.IdleEncoderWaitsForACommand
  exact ⟨State.reset_phase, fun _ => step_of_no_command⟩

/-- Settles O13: the fields of the state at reset and of the state the reset step answers, and the ROM, which no state holds. -/
theorem resetLeavesIdleAndEmptyLog : Obligations.ResetLeavesIdleAndEmptyLog := by
  unfold Obligations.ResetLeavesIdleAndEmptyLog
  refine ⟨⟨State.reset_phase, State.reset_result, State.reset_log⟩, fun s hr => ?_, rfl⟩
  exact ⟨_, step_of_reset hr, s.applyReset_phase, s.applyReset_result, s.applyReset_log, s.applyReset_resetLine⟩

theorem State.inFlight_of_idle {s : State} (h : s.phase = .idle) : s.inFlight = none := by
  simp [inFlight, h]

theorem State.inFlight_of_busy {s : State} (hb : s.phase = .busy) (hk : s.k < s.seq.length) : s.inFlight = some s.seq[s.k] := by
  simp [inFlight, hb, hk]

/-- Settles O14: the request SEQ[K] is in flight, so reset drops its answer, and IDLE has no request in flight. -/
theorem resetAbandonsTheRunningCommand : Obligations.ResetAbandonsTheRunningCommand := by
  unfold Obligations.ResetAbandonsTheRunningCommand
  intro s hr hb hk
  have hans : s.applyReset.answers = s.answers.drop 1 := by
    rw [State.applyReset_answers, State.inFlight_of_busy hb hk, Option.isSome_some, if_pos rfl, List.drop_one]
  exact ⟨_, step_of_reset hr, s.applyReset_phase, s.applyReset_result, s.applyReset_log, hans, s.applyReset_commandPort,
    State.inFlight_of_idle s.applyReset_phase⟩

/-- The state at reset is what reset makes of it. -/
theorem State.applyReset_reset : State.reset.applyReset = State.reset := rfl

/-- Settles O47: what reset leaves, from any state, meets the invariant. -/
theorem resetMeetsTheInvariant : Obligations.ResetMeetsTheInvariant := by
  unfold Obligations.ResetMeetsTheInvariant
  rw [← State.applyReset_reset]
  exact State.reset.applyReset_inv

end Sys2Proof.Machine
end
